-- ==== Sys2Proof/Word.lean ====
section
/-! DEFINITION. The fixed widths of AP4S-CORE (spec/00_scope.md R6). -/

namespace Sys2Proof

/-- The host data word and the command word: 16 bits (R6). -/
abbrev Word := BitVec 16

/-- A host address, naming one word: 8 bits (R6). -/
abbrev Addr := BitVec 8

/-- An input character: one 8-bit byte (R6). -/
abbrev Byte := BitVec 8

/-- A field element or symbol: 6 bits (R6). -/
abbrev Sym := BitVec 6

/-- A base-4 digit, one bar: 2 bits (R6). -/
abbrev Digit := BitVec 2

/-- The value of ILEN and OLEN: 7 bits (R24, R25). -/
abbrev Len := BitVec 7

end Sys2Proof
end

