-- ==== Sys2Proof/Config.lean ====
section
/-! DEFINITION. The configuration record of spec/00_scope.md R7: the types of its fields, and the open parameter CYCLES.
The default values stand in Sys2Proof/Machine/Roms.lean, the well-formedness check R8 in Sys2Proof/Machine/Admit.lean. -/

namespace Sys2Proof

/-- A two-digit base-4 string "d0 d1", leftmost first (R10): an entry of N_TABLE. -/
structure Pair where
  d0 : Digit
  d1 : Digit
deriving DecidableEq, Repr

/-- A three-digit base-4 string "d0 d1 d2", leftmost first (R10): an entry of C_TABLE or BAR_TABLE. -/
structure Triple where
  d0 : Digit
  d1 : Digit
  d2 : Digit
deriving DecidableEq, Repr

/-- The three barcode types of the source (glossary of 00_scope.md; R102). -/
inductive BarcodeType where
  | standard
  | type59
  | type62
deriving DecidableEq, Repr

/-- One row of TYPE_TABLE (R102): the FCC value and the four counts. Counts of customer characters
(`maxDigits`, `maxChars`) and of digits (`custBars`, `fillers`; 90_conflicts.md C9). -/
structure TypeRow where
  fcc : Nat
  maxDigits : Nat
  maxChars : Nat
  custBars : Nat
  fillers : Nat
deriving DecidableEq, Repr

/-- TYPE_TABLE: one row for each barcode type (R102). -/
structure TypeTable where
  standard : TypeRow
  type59 : TypeRow
  type62 : TypeRow
deriving DecidableEq, Repr

/-- The configuration record `Cfg` (R7), all its fields but CYCLES, which is `Config.cycles` below. -/
structure Cfg where
  /-- GF_POLY, the reduction polynomial, bit i the coefficient of x^i (R76). -/
  gfPoly : BitVec 7
  /-- RS_COEFF = [c0, c1, c2, c3] (R87). -/
  rsCoeff : Vector Sym 4
  /-- N_TABLE, one entry per decimal digit (R99). -/
  nTable : Vector Pair 10
  /-- C_TABLE, one entry per alphabet index (R100). -/
  cTable : Vector Triple 64
  /-- BAR_TABLE, one entry per symbol value (R116). -/
  barTable : Vector Triple 64
  /-- TYPE_TABLE (R102). -/
  typeTable : TypeTable
  /-- IBUF_SIZE (R30). -/
  ibufSize : Nat
  /-- OBUF_SIZE (R31). -/
  obufSize : Nat
deriving DecidableEq, Repr

/-- What a command's latency may depend on (R160): the word, and for ENCODE also ILEN and STAT.READY. -/
inductive LatencyKey where
  | word (w : Word)
  | encode (ilen : Len) (ready : Bool)
deriving DecidableEq, Repr

/-- The open part of the parameter CYCLES (R160; U8): nothing is known of it. Log entry 12. -/
opaque Config.extraCycles : LatencyKey → Nat

/-- The parameter CYCLES (R160): a positive cycle count for every key. No definition of the model reads it. Log entry 12. -/
def Config.cycles (k : LatencyKey) : Nat := Config.extraCycles k + 1

end Sys2Proof
end

