-- ==== Sys2Proof/Machine/Operands.lean ====
section
/-! DEFINITION. Operand fields of a command word (spec/30_encoding.md R56 to R62) and the order of digits in a result word
(spec/20_memory.md R44, spec/43_symbol_assembler.md R113). -/

namespace Sys2Proof.Machine

/-- w[5:0]: operand a of format A, operand b of format AB (R57, R58). -/
def symLow (w : Word) : Sym := w.extractLsb' 0 6

/-- w[11:6]: operand a of format AB (R58). -/
def symHigh (w : Word) : Sym := w.extractLsb' 6 6

/-- w[7:0]: operand c of format C (R59). -/
def charField (w : Word) : Byte := w.extractLsb' 0 8

/-- w[1:0]: operand k of format K, operand d2 of format D3 (R60, R61). -/
def pairLow (w : Word) : BitVec 2 := w.extractLsb' 0 2

/-- w[5:4]: operand d1 of format D3 (R61). -/
def pairMid (w : Word) : BitVec 2 := w.extractLsb' 4 2

/-- w[9:8]: operand d0 of format D3 (R61). -/
def pairHigh (w : Word) : BitVec 2 := w.extractLsb' 8 2

/-- An opcode at w[15:12], every other bit 0 (R55). -/
def opBits (op : BitVec 4) : Word := op.setWidth 16 <<< 12

/-- A word of format N (R56). -/
def wordN (op : BitVec 4) : Word := opBits op

/-- A word of format A (R57). -/
def wordA (op : BitVec 4) (a : Sym) : Word := opBits op ||| a.setWidth 16

/-- A word of format AB (R58). -/
def wordAB (op : BitVec 4) (a b : Sym) : Word := opBits op ||| (a.setWidth 16 <<< 6) ||| b.setWidth 16

/-- A word of format C (R59). -/
def wordC (op : BitVec 4) (c : Byte) : Word := opBits op ||| c.setWidth 16

/-- A word of format K (R60). -/
def wordK (op : BitVec 4) (k : BitVec 2) : Word := opBits op ||| k.setWidth 16

/-- A word of format D3 (R61). -/
def wordD3 (op : BitVec 4) (d0 d1 d2 : Digit) : Word :=
  opBits op ||| (d0.setWidth 16 <<< 8) ||| (d1.setWidth 16 <<< 4) ||| d2.setWidth 16

/-- `(d0 << 2) | d1`: the leftmost digit most significant (R44). -/
def pack2 (p : Pair) : BitVec 4 := (p.d0.setWidth 4 <<< 2) ||| p.d1.setWidth 4

/-- `Pack3`: `(d0 << 4) | (d1 << 2) | d2` (R44, R113). -/
def pack3 (t : Triple) : Sym := (t.d0.setWidth 6 <<< 4) ||| (t.d1.setWidth 6 <<< 2) ||| t.d2.setWidth 6

/-- The digits of a two-digit string, leftmost first (R10). -/
def pairDigits (p : Pair) : List Digit := [p.d0, p.d1]

/-- The digits of a three-digit string, leftmost first (R10). -/
def tripleDigits (t : Triple) : List Digit := [t.d0, t.d1, t.d2]

/-- A two-digit string spelled by the hexadecimal digits of `n`: `0x30` is "30". -/
def pairOf (n : Nat) : Pair := ⟨BitVec.ofNat 2 (n / 16), BitVec.ofNat 2 n⟩

/-- A three-digit string spelled by the hexadecimal digits of `n`: `0x123` is "123" (as in R61). -/
def tripleOf (n : Nat) : Triple := ⟨BitVec.ofNat 2 (n / 256), BitVec.ofNat 2 (n / 16), BitVec.ofNat 2 n⟩

end Sys2Proof.Machine
end

