-- ==== Sys2Proof/Machine/OpcodeMap.lean ====
section
/-! DEFINITION. The opcode map of spec/30_encoding.md R63 and the legality of a command word (R64, R65, R68). -/

namespace Sys2Proof.Machine

/-- The six command formats (R56 to R61). -/
inductive Format where
  /-- No operand (R56). -/
  | n
  /-- One 6-bit symbol (R57). -/
  | a
  /-- Two 6-bit symbols (R58). -/
  | ab
  /-- One character (R59). -/
  | c
  /-- One 2-bit operand (R60). -/
  | k
  /-- Three base-4 digits (R61). -/
  | d3
deriving DecidableEq, Repr

/-- The match mask of a format (R56 to R61): the bits that are not operand bits. -/
def formatMask : Format → Word
  | .n => 0xFFFF
  | .a => 0xFFC0
  | .ab => 0xF000
  | .c => 0xFF00
  | .k => 0xFFFC
  | .d3 => 0xFCCC

/-- One row of the opcode map (R63). -/
structure OpRow where
  op : BitVec 4
  mnemonic : String
  format : Format
  matchBits : Word
  mask : Word
deriving DecidableEq, Repr

/-- The fifteen rows of R63 that name a command; OP 0xF has none. -/
def opcodeMap : List OpRow :=
  [ ⟨0x0, "NOP", .n, 0x0000, 0xFFFF⟩,
    ⟨0x1, "GFINIT", .n, 0x1000, 0xFFFF⟩,
    ⟨0x2, "GFLOG", .a, 0x2000, 0xFFC0⟩,
    ⟨0x3, "GFEXP", .a, 0x3000, 0xFFC0⟩,
    ⟨0x4, "GFMUL", .ab, 0x4000, 0xF000⟩,
    ⟨0x5, "PCLR", .n, 0x5000, 0xFFFF⟩,
    ⟨0x6, "PFEED", .a, 0x6000, 0xFFC0⟩,
    ⟨0x7, "PREAD", .k, 0x7000, 0xFFFC⟩,
    ⟨0x8, "CLOOKUP", .c, 0x8000, 0xFF00⟩,
    ⟨0x9, "NENC", .c, 0x9000, 0xFF00⟩,
    ⟨0xA, "CENC", .c, 0xA000, 0xFF00⟩,
    ⟨0xB, "BAREXP", .a, 0xB000, 0xFFC0⟩,
    ⟨0xC, "PACK", .d3, 0xC000, 0xFCCC⟩,
    ⟨0xD, "BARSHAPE", .k, 0xD000, 0xFFFC⟩,
    ⟨0xE, "ENCODE", .n, 0xE000, 0xFFFF⟩ ]

/-- OP = w[15:12] (R55). -/
def opcodeOf (w : Word) : BitVec 4 := w.extractLsb' 12 4

/-- The row an opcode selects; none for 0xF (R63, R65). -/
def rowOf (op : BitVec 4) : Option OpRow := opcodeMap.find? (fun r => r.op == op)

/-- A word that decodes to no command: OP 0xF, or a bit set outside the operand fields of its format (R64, R65, R68). -/
def isIllegalWord (w : Word) : Bool :=
  match rowOf (opcodeOf w) with
  | none => true
  | some r => (w &&& r.mask) != r.matchBits

end Sys2Proof.Machine
end

