-- ==== Sys2Proof/Syntax.lean ====
section
/-! DEFINITION. The commands of AP4S-CORE: one constructor for each row of spec/opcode_table.json
(spec/30_encoding.md R63). -/

namespace Sys2Proof

/-- A decoded command. Every operand is an immediate, an unsigned field of the command word used as it stands (R62). -/
inductive Instr where
  /-- NOP: do nothing (R128). -/
  | nop
  /-- GFINIT: rebuild the tables (R83). -/
  | gfinit
  /-- GFLOG a: read one log-table entry (R84). -/
  | gflog (a : Sym)
  /-- GFEXP a: read one antilog-table entry (R85). -/
  | gfexp (a : Sym)
  /-- GFMUL a, b: multiply two field elements (R86). -/
  | gfmul (a b : Sym)
  /-- PCLR: clear the accumulator (R93). -/
  | pclr
  /-- PFEED a: feed one symbol into the LFSR (R94). -/
  | pfeed (a : Sym)
  /-- PREAD k: read one check symbol (R95). -/
  | pread (k : BitVec 2)
  /-- CLOOKUP c: character-to-index lookup (R110). -/
  | clookup (c : Byte)
  /-- NENC c: numeric-table lookup (R111). -/
  | nenc (c : Byte)
  /-- CENC c: alphanumeric-table lookup (R112). -/
  | cenc (c : Byte)
  /-- BAREXP a: expand a symbol through the bar-value table (R121). -/
  | barexp (a : Sym)
  /-- PACK d0, d1, d2: pack three digits into a symbol (R120). -/
  | pack (d0 d1 d2 : Digit)
  /-- BARSHAPE k: read one entry of the shape ROM (R127). -/
  | barshape (k : Digit)
  /-- ENCODE: encode the input buffer into a framed bar string (R122). -/
  | encode
  /-- ILLEGAL: the execution of the word `w`, which decodes to no command (R64, R65, R129). The word is kept only so that
  encoding gives it back (R72); its bits are not used further. Log entry 11. -/
  | illegal (w : Word)
deriving DecidableEq, Repr

end Sys2Proof
end

