-- ==== Sys2Proof/WellFormed.lean ====
section
/-! DEFINITION. Which terms of `Instr` stand for a command word (spec/30_encoding.md R62, R68). -/

namespace Sys2Proof

/-- Operand ranges (R57 to R61) hold by the operands' types. What is left to check: the word an ILLEGAL carries must be one
that decodes to no command (R68). -/
def Instr.wf : Instr → Bool
  | .nop => true
  | .gfinit => true
  | .gflog _ => true
  | .gfexp _ => true
  | .gfmul _ _ => true
  | .pclr => true
  | .pfeed _ => true
  | .pread _ => true
  | .clookup _ => true
  | .nenc _ => true
  | .cenc _ => true
  | .barexp _ => true
  | .pack _ _ _ => true
  | .barshape _ => true
  | .encode => true
  | .illegal w => Machine.isIllegalWord w

end Sys2Proof
end

