-- ==== Sys2Proof/Decode.lean ====
section
/-! DEFINITION. Decoding a command word (spec/30_encoding.md R68) and, after it, encoding (R56 to R61, R63, R71, R72). -/

namespace Sys2Proof

open Machine in
/-- `Decode(w)` of R68: total on the 65536 words; a word with no command is ILLEGAL, by that name. -/
def decode (w : Word) : Instr :=
  if isIllegalWord w then .illegal w
  else
    match (opcodeOf w).toNat with
    | 0x0 => .nop
    | 0x1 => .gfinit
    | 0x2 => .gflog (symLow w)
    | 0x3 => .gfexp (symLow w)
    | 0x4 => .gfmul (symHigh w) (symLow w)
    | 0x5 => .pclr
    | 0x6 => .pfeed (symLow w)
    | 0x7 => .pread (pairLow w)
    | 0x8 => .clookup (charField w)
    | 0x9 => .nenc (charField w)
    | 0xA => .cenc (charField w)
    | 0xB => .barexp (symLow w)
    | 0xC => .pack (pairHigh w) (pairMid w) (pairLow w)
    | 0xD => .barshape (pairLow w)
    | 0xE => .encode
    | _ => .illegal w

/-- Why a pattern of bits is no command word. -/
inductive DecodeError where
  /-- A command is exactly one 16-bit word (R55, R67): this pattern has more bits. Safe: nothing is executed. -/
  | notOneWord
deriving DecidableEq, Repr

/-- Decoding a pattern of `nbits` bits, those above `nbits` being 0. There is no second word (R55), so a pattern of more than
16 bits is rejected by name. Log entry 15. -/
def decodeBits (nbits w : Nat) : Except DecodeError Instr :=
  if nbits ≤ 16 then .ok (decode (BitVec.ofNat 16 (w % 2 ^ nbits))) else .error .notOneWord

/-- The instruction the decoder reads from an opcode-table word. The bus carries whole words (R42, R43), so the word is given
to the decoder as it stands. -/
def decodeTableWord (nbits w : Nat) : Option Instr :=
  match decodeBits nbits w with
  | .ok i => some i
  | .error _ => none

open Machine in
/-- The word of a command (R56 to R61, R63); of an ILLEGAL, the word itself (R72). -/
def encode : Instr → Word
  | .nop => wordN 0x0
  | .gfinit => wordN 0x1
  | .gflog a => wordA 0x2 a
  | .gfexp a => wordA 0x3 a
  | .gfmul a b => wordAB 0x4 a b
  | .pclr => wordN 0x5
  | .pfeed a => wordA 0x6 a
  | .pread k => wordK 0x7 k
  | .clookup c => wordC 0x8 c
  | .nenc c => wordC 0x9 c
  | .cenc c => wordC 0xA c
  | .barexp a => wordA 0xB a
  | .pack d0 d1 d2 => wordD3 0xC d0 d1 d2
  | .barshape k => wordK 0xD k
  | .encode => wordN 0xE
  | .illegal w => w

end Sys2Proof
end

