-- ==== Sys2Proof/Machine/Admit.lean ====
section
/-! DEFINITION. Configuration well-formedness (spec/00_scope.md R8). -/

namespace Sys2Proof.Machine

/-- The six primitive degree-6 polynomials over GF(2) (R8 (a)). -/
def primitivePolys : List (BitVec 7) := [0x43, 0x5B, 0x61, 0x67, 0x6D, 0x73]

/-- No value stands twice in the list. -/
def allDistinct : List Nat → Bool
  | [] => true
  | x :: xs => !xs.contains x && allDistinct xs

/-- The row of a barcode type (R102). -/
def rowFor (tt : TypeTable) : BarcodeType → TypeRow
  | .standard => tt.standard
  | .type59 => tt.type59
  | .type62 => tt.type62

/-- The part of R8 (f) about one row: the FCC range and the field sizes. -/
def rowAdmitted (obufSize : Nat) (r : TypeRow) : Bool :=
  decide (r.fcc ≤ 99) && decide (2 * r.maxDigits ≤ r.custBars) && decide (3 * r.maxChars ≤ r.custBars) &&
    decide (20 + r.custBars + r.fillers + 16 ≤ obufSize)

/-- R8. The entry counts of (b) to (e) and the ranges of digits and symbols hold by the types of the fields; (e) says no
more. -/
def admits (c : Cfg) : Bool :=
  primitivePolys.contains c.gfPoly &&
  allDistinct (c.nTable.toList.map (fun p => (pack2 p).toNat)) &&
  allDistinct (c.cTable.toList.map (fun t => (pack3 t).toNat)) &&
  allDistinct [c.typeTable.standard.fcc, c.typeTable.type59.fcc, c.typeTable.type62.fcc] &&
  rowAdmitted c.obufSize c.typeTable.standard &&
  rowAdmitted c.obufSize c.typeTable.type59 &&
  rowAdmitted c.obufSize c.typeTable.type62 &&
  decide (10 ≤ c.ibufSize) && decide (c.ibufSize ≤ 127) &&
  decide (1 ≤ c.obufSize) && decide (c.obufSize ≤ 127)

end Sys2Proof.Machine
end

