-- ==== Sys2Proof/Machine/Roms.lean ====
section
/-! DEFINITION. The default values of the configuration fields (spec/00_scope.md R7). Most are the spec's own general knowledge
(93_implementation_defined.md G2, G3, G5 to G7): log entry 14. -/

namespace Sys2Proof.Machine

/-- GF_POLY: x^6 + x + 1 (R76). -/
def defaultGfPoly : BitVec 7 := 0x43

/-- RS_COEFF (R87). -/
def defaultRsCoeff : Vector Sym 4 := ⟨#[48, 17, 29, 30], rfl⟩

/-- N_TABLE (R99), each entry spelled in hexadecimal. -/
def defaultNTable : Vector Pair 10 :=
  ⟨([0x00, 0x01, 0x02, 0x10, 0x11, 0x12, 0x20, 0x21, 0x22, 0x30].map pairOf).toArray, rfl⟩

/-- C_TABLE (R100), entries of the digits 0 to 9, spelled in hexadecimal. -/
def cDigits : List Nat := [0x222, 0x300, 0x301, 0x302, 0x310, 0x311, 0x312, 0x320, 0x321, 0x322]

/-- C_TABLE (R100), entries of A to Z. -/
def cUpper : List Nat :=
  [0x000, 0x001, 0x002, 0x010, 0x011, 0x012, 0x020, 0x021, 0x022, 0x100, 0x101, 0x102, 0x110,
   0x111, 0x112, 0x120, 0x121, 0x122, 0x200, 0x201, 0x202, 0x210, 0x211, 0x212, 0x220, 0x221]

/-- C_TABLE (R100), entries of a to z. -/
def cLower : List Nat :=
  [0x023, 0x030, 0x031, 0x032, 0x033, 0x103, 0x113, 0x123, 0x130, 0x131, 0x132, 0x133, 0x203,
   0x213, 0x223, 0x230, 0x231, 0x232, 0x233, 0x303, 0x313, 0x323, 0x330, 0x331, 0x332, 0x333]

/-- C_TABLE (R100), entries of space and `#`. -/
def cOther : List Nat := [0x003, 0x013]

/-- C_TABLE (R100), by alphabet index. -/
def defaultCTable : Vector Triple 64 :=
  ⟨((cDigits ++ cUpper ++ cLower ++ cOther).map tripleOf).toArray, rfl⟩

/-- BAR_TABLE: the base-4 expansion of the index (R116). -/
def defaultBarTable : Vector Triple 64 :=
  ⟨((List.range 64).map (fun v =>
    (⟨BitVec.ofNat 2 (v / 16), BitVec.ofNat 2 (v / 4), BitVec.ofNat 2 v⟩ : Triple))).toArray, rfl⟩

/-- TYPE_TABLE (R102). -/
def defaultTypeTable : TypeTable where
  standard := { fcc := 11, maxDigits := 0, maxChars := 0, custBars := 0, fillers := 1 }
  type59 := { fcc := 59, maxDigits := 8, maxChars := 5, custBars := 16, fillers := 0 }
  type62 := { fcc := 62, maxDigits := 15, maxChars := 10, custBars := 31, fillers := 0 }

/-- The default configuration (R7). -/
def defaultCfg : Cfg where
  gfPoly := defaultGfPoly
  rsCoeff := defaultRsCoeff
  nTable := defaultNTable
  cTable := defaultCTable
  barTable := defaultBarTable
  typeTable := defaultTypeTable
  ibufSize := 64
  obufSize := 67

end Sys2Proof.Machine
end

