-- ==== Sys2Proof/Machine/State.lean ====
section
/-! DEFINITION. The architectural state of AP4S-CORE (spec/10_state.md R14), the reasons a step can stop, and the state after
reset (spec/70_reset_and_hazards.md R149). -/

namespace Sys2Proof.Machine

/-- The outcome of a command (60_exceptions.md R132): success and the nine errors. -/
inductive ErrCode where
  /-- Code 0: the command completed. -/
  | none
  /-- Code 1: ILEN < 10. -/
  | valTooShort
  /-- Code 2: IBUF[0] or IBUF[1] is not a decimal digit. -/
  | valBadFcc
  /-- Code 3: some IBUF[2..9] is not a decimal digit. -/
  | valBadDpid
  /-- Code 4: the FCC value is in no row of TYPE_TABLE. -/
  | valUnknownType
  /-- Code 5: the customer field is longer than its type allows. -/
  | valLengthExceeded
  /-- Code 6: a character with no table entry. -/
  | encNotInAlphabet
  /-- Code 7: the body length is not a multiple of 3. -/
  | internal
  /-- Code 8: any illegal word. -/
  | illegalCmd
  /-- Code 9: ILEN > IBUF_SIZE. -/
  | bufRange
deriving DecidableEq, Repr

/-- The fields of STAT (R18). Bits [15:8] of the register read 0 in every state (R23) and are not stored. Log entry 10. -/
structure Stat where
  /-- ERR, STAT[3:0] (R19). -/
  err : BitVec 4
  /-- BTYPE, STAT[5:4] (R20). -/
  btype : BitVec 2
  /-- VALID, STAT[6] (R21). -/
  valid : Bool
  /-- READY, STAT[7] (R22). -/
  ready : Bool
deriving DecidableEq, Repr

/-- A buffer of the core: cells (entry index, content), indices strictly rising. An entry with no cell has not been written
since reset and holds no defined value (R32). Log entries 6 and 13. -/
structure Memory where
  cells : List Host.Cell
deriving DecidableEq, Repr

/-- One host bus operation, or the reset input between two of them (R36, R148, R150). -/
inductive HostOp where
  /-- `MemRead(a, 1)` (R11). -/
  | read (a : Addr)
  /-- `MemWrite(a, 1, v)` (R11). -/
  | write (a : Addr) (v : Word)
  /-- RST is asserted and released (R148). Log entry 8. -/
  | reset
deriving DecidableEq, Repr

/-- The state. From `res` to `obuf` it is the tuple of R14; `cfg`, `pending` and `reads` are the model's own. -/
structure State where
  /-- The configuration: a parameter no step changes (R7, R14, R152). Log entry 1. -/
  cfg : Cfg
  /-- RES, the result register (R17). -/
  res : Word
  /-- STAT, the status register (R18). -/
  stat : Stat
  /-- ILEN, the input length (R24). -/
  ilen : Len
  /-- OLEN, the output length (R25). -/
  olen : Len
  /-- ACC[0..3], the parity accumulator (R27). -/
  acc : Vector Sym 4
  /-- LOG[0..63] (R28). -/
  log : Vector Sym 64
  /-- ALOG[0..63] (R29). -/
  alog : Vector Sym 64
  /-- IBUF, the input character buffer, by entry index (R30). -/
  ibuf : Memory
  /-- OBUF, the output digit buffer, by entry index, each digit in the low two bits of its cell (R31). -/
  obuf : Memory
  /-- The host operations not yet taken, oldest first: input (R14, R16). Log entry 3. -/
  pending : List HostOp
  /-- The words host reads have returned, newest first: the host's own record. Log entry 4. -/
  reads : List Word
deriving DecidableEq, Repr

/-- The two buffers, to name an entry in a fault. -/
inductive Buffer where
  | ibuf
  | obuf
deriving DecidableEq, Repr

/-- Why the model stops with a fault. -/
inductive Fault where
  /-- A read of an IBUF or OBUF entry that has not been written since reset (R32; U2). Raised by a host read of the entry, and by
  ENCODE for an IBUF entry below ILEN (the lowest such index is named). Safe: the hardware goes on with some value. -/
  | unwrittenEntry (b : Buffer) (index : Nat)
deriving DecidableEq, Repr

/-- Why the model refuses to give a meaning. -/
inductive Refusal where
  /-- An instruction with no meaning yet. Raised by no arm: every command has its meaning. Safe. -/
  | notModelled (mnemonic : String)
  /-- The configuration fails R8, so the model gives it no meaning (R8; U9). Raised by `step`. Safe. Log entry 2. -/
  | illFormedConfig
deriving DecidableEq, Repr

/-- The state right after reset (R149), with the default configuration (R7), no host operation waiting and nothing read.
LOG and ALOG are unspecified at reset; the model's value is 0: log entry 5. -/
def State.reset : State where
  cfg := defaultCfg
  res := 0
  stat := { err := 0, btype := 0, valid := false, ready := false }
  ilen := 0
  olen := 0
  acc := Vector.replicate 4 0
  log := Vector.replicate 64 0
  alog := Vector.replicate 64 0
  ibuf := ⟨[]⟩
  obuf := ⟨[]⟩
  pending := []
  reads := []

end Sys2Proof.Machine
end

