-- ==== Sys2Proof/Machine/Flags.lean ====
section
/-! DEFINITION. STAT: the codes of its fields and its layout (spec/10_state.md R18 to R23; spec/60_exceptions.md R132). There
are no condition codes and no flag is computed from a result (R33). -/

namespace Sys2Proof.Machine

/-- The code an outcome writes to STAT.ERR (R132). -/
def errBits : ErrCode → BitVec 4
  | .none => 0
  | .valTooShort => 1
  | .valBadFcc => 2
  | .valBadDpid => 3
  | .valUnknownType => 4
  | .valLengthExceeded => 5
  | .encNotInAlphabet => 6
  | .internal => 7
  | .illegalCmd => 8
  | .bufRange => 9

/-- The code of a barcode type in STAT.BTYPE (R20, R102). -/
def btypeBits : BarcodeType → BitVec 2
  | .standard => 1
  | .type59 => 2
  | .type62 => 3

/-- STAT as a word: [15:8] 0, [7] READY, [6] VALID, [5:4] BTYPE, [3:0] ERR (R18, R23). -/
def statWord (st : Stat) : Word :=
  ((BitVec.ofBool st.ready).setWidth 16 <<< 7) ||| ((BitVec.ofBool st.valid).setWidth 16 <<< 6) |||
    (st.btype.setWidth 16 <<< 4) ||| st.err.setWidth 16

end Sys2Proof.Machine
end

