-- ==== Sys2Proof/Machine/Ops.lean ====
section
/-! DEFINITION. The named operations over buffers, tables and registers, the completion of a command, and the one shared
operation by which a command ends in an error (spec/60_exceptions.md R134, R135). There is no return from an error (R139). -/

namespace Sys2Proof.Machine

/-! ### Buffers -/

/-- What the first cell with index `i` holds. -/
def cellsRead : List Host.Cell → Nat → Option Byte
  | [], _ => none
  | (k, b) :: rest, i => if k = i then some b else cellsRead rest i

/-- Put a cell into a list of strictly rising indices. -/
def cellsWrite : List Host.Cell → Nat → Byte → List Host.Cell
  | [], i, b => [(i, b)]
  | (k, c) :: rest, i, b =>
    if i < k then (i, b) :: (k, c) :: rest
    else if i = k then (i, b) :: rest
    else (k, c) :: cellsWrite rest i b

/-- The indices rise strictly, and are all at or above `low`. -/
def cellsRising : Nat → List Host.Cell → Bool
  | _, [] => true
  | low, (k, _) :: rest => decide (low ≤ k) && cellsRising (k + 1) rest

/-- One entry of a buffer; `none` where nothing has been written since reset (R32). -/
def Memory.read? (m : Memory) (i : Nat) : Option Byte := cellsRead m.cells i

/-- Write one entry of a buffer. -/
def Memory.write (m : Memory) (i : Nat) (b : Byte) : Memory := ⟨cellsWrite m.cells i b⟩

/-- The canonical form: indices strictly rising. An unlisted entry reads as no value, so no listed entry can equal what an
unlisted one reads as. -/
def Memory.wf (m : Memory) : Bool := cellsRising 0 m.cells

/-- Write the digits of a string to consecutive entries from index `i` on, each zero-extended into its cell (R31, R122). -/
def writeDigits (m : Memory) (i : Nat) : List Digit → Memory
  | [] => m
  | d :: ds => writeDigits (m.write i (d.setWidth 8)) (i + 1) ds

/-- Read `n` entries from index `i` on, in index order (R54); or the index of the first that holds no value (R32). -/
def readEntries (m : Memory) (i : Nat) : Nat → Except Nat (List Byte)
  | 0 => .ok []
  | n + 1 =>
    match m.read? i with
    | none => .error i
    | some b =>
      match readEntries m (i + 1) n with
      | .error j => .error j
      | .ok bs => .ok (b :: bs)

/-! ### Tables -/

/-- Entry `i` of a 64-entry table. -/
def tableGet {α : Type} (t : Vector α 64) (i : Sym) : α := t[i.toNat]'i.isLt

/-- Write entry `i` of a 64-entry table. -/
def tablePut {α : Type} (t : Vector α 64) (i : Sym) (v : α) : Vector α 64 := t.set i.toNat v i.isLt

/-! ### Registers -/

/-- Write STAT.ERR. -/
def State.setErr (s : State) (e : ErrCode) : State := { s with stat := { s.stat with err := errBits e } }

/-- Write RES. -/
def State.setRes (s : State) (w : Word) : State := { s with res := w }

/-- Write ACC[0..3]. -/
def State.setAcc (s : State) (a : Vector Sym 4) : State := { s with acc := a }

/-- Write LOG and ALOG and set STAT.READY, as the table generator does (R77). -/
def State.setTables (s : State) (log alog : Vector Sym 64) : State :=
  { s with log := log, alog := alog, stat := { s.stat with ready := true } }

/-- A host write to ILEN stores v[6:0] (R24). -/
def State.setIlen (s : State) (v : Word) : State := { s with ilen := v.setWidth 7 }

/-- A host write to IBUF[i] stores v[7:0] (R38). -/
def State.putIbuf (s : State) (i : Nat) (v : Word) : State := { s with ibuf := s.ibuf.write i (v.setWidth 8) }

/-- The host records a word a read returned. -/
def State.noteRead (s : State) (w : Word) : State := { s with reads := w :: s.reads }

/-- The host operations still waiting. -/
def State.setPending (s : State) (p : List HostOp) : State := { s with pending := p }

/-! ### How a command ends -/

/-- A command that produces no value completes: STAT.ERR <- 0 (R133). -/
def State.complete (s : State) : State := s.setErr .none

/-- A command that produces a value completes: RES <- the value, STAT.ERR <- 0 (R17, R133). -/
def State.returnValue (s : State) (w : Word) : State := (s.setRes w).setErr .none

/-- `raise E` (R134): STAT.ERR <- code(E) and nothing else; RES, ACC and the buffers stay. -/
def State.raise (s : State) (e : ErrCode) : State := s.setErr e

/-- `raise E` in ENCODE (R134, R135): OLEN, STAT.VALID and STAT.BTYPE are cleared too; no OBUF entry is written. -/
def State.raiseEncode (s : State) (e : ErrCode) : State :=
  { s with olen := 0, stat := { s.stat with valid := false, btype := 0, err := errBits e } }

/-- The writes of a successful ENCODE after the accumulator's (R122): OBUF[0..n), OLEN, BTYPE, VALID, ERR. -/
def State.deliver (s : State) (ty : BarcodeType) (out : List Digit) : State :=
  { s with
    obuf := writeDigits s.obuf 0 out
    olen := BitVec.ofNat 7 out.length
    stat := { s.stat with btype := btypeBits ty, valid := true, err := errBits .none } }

/-- The machine after reset with the configuration `c` (R7, R149): the configuration is a parameter, so a host that takes another
one than the default starts here. Log entry 1. -/
def State.resetWith (c : Cfg) : State := { State.reset with cfg := c }

/-- RST (R148, R149): every piece of architectural state takes its reset value. The configuration is no state (R152); the
operations the host still waits with are held, not lost (R150); the host keeps its record. -/
def State.rst (s : State) : State := { State.resetWith s.cfg with pending := s.pending, reads := s.reads }

end Sys2Proof.Machine
end

