-- ==== Sys2Proof/Machine/Bmap.lean ====
section
/-! DEFINITION. BMAP, the bar mapper: the shape ROM, its geometry, the horizontal layout, and BARSHAPE
(spec/44_bar_mapper.md). -/

namespace Sys2Proof.Machine

/-- The four bar shapes (R124). -/
inductive BarShape where
  | full
  | ascender
  | descender
  | tracker
deriving DecidableEq, Repr

/-- The shape ROM (R124). -/
def shapeOf (d : Digit) : BarShape :=
  match d.toNat with
  | 0 => .full
  | 1 => .ascender
  | 2 => .descender
  | _ => .tracker

/-- The shape code (R124). -/
def shapeCode : BarShape → BitVec 4
  | .full => 0
  | .ascender => 1
  | .descender => 2
  | .tracker => 3

/-- Where the shape begins, in eighths of the full height, measured down from the top of the full bar (R125). -/
def shapeTop : BarShape → BitVec 4
  | .full => 0
  | .ascender => 0
  | .descender => 4
  | .tracker => 3

/-- How high the shape is, in eighths of the full height (R125). -/
def shapeHeight : BarShape → BitVec 4
  | .full => 8
  | .ascender => 4
  | .descender => 4
  | .tracker => 2

/-- `(height << 8) | (top << 4) | code` (R127). -/
def shapeWord (b : BarShape) : Word :=
  ((shapeHeight b).setWidth 16 <<< 8) ||| ((shapeTop b).setWidth 16 <<< 4) ||| (shapeCode b).setWidth 16

/-- The left edge of bar `i` (R126). `x0` and `barWidth` are the renderer's, outside the core: log entry 17. -/
def barLeftEdge (x0 barWidth i : Nat) : Nat := x0 + 2 * barWidth * i

/-- The bars a renderer draws of the state, left to right: the shapes of OBUF[0..OLEN) at their left edges, where VALID is 1
(R21, R124, R126). A view of the state; no command computes it. Log entry 17. -/
def barsDrawn (s : State) (x0 barWidth : Nat) : List (Nat × BarShape) :=
  if s.stat.valid then
    (List.range s.olen.toNat).filterMap (fun i =>
      (s.obuf.read? i).map (fun b => (barLeftEdge x0 barWidth i, shapeOf (b.setWidth 2))))
  else []

/-- BARSHAPE k (R127). -/
def execBarshape (k : Digit) (s : State) : Host.Outcome State Fault Refusal :=
  .next (s.returnValue (shapeWord (shapeOf k)))

end Sys2Proof.Machine
end

