-- ==== Sys2Proof/Machine/Control.lean ====
section
/-! DEFINITION. The control commands: NOP and the execution of an illegal word (spec/45_control.md). -/

namespace Sys2Proof.Machine

/-- NOP (R128). -/
def execNop (s : State) : Host.Outcome State Fault Refusal :=
  .next s.complete

/-- ILLEGAL (R129): `raise ILLEGAL_CMD`; the word's bits are not used. -/
def execIllegal (_w : Word) (s : State) : Host.Outcome State Fault Refusal :=
  .next (s.raise .illegalCmd)

end Sys2Proof.Machine
end

