-- ==== Sys2Proof/Machine/Fcodec.lean ====
section
/-! DEFINITION. FCODEC, the field codec: alphabet, tables, parsing, validation, field encoding, and CLOOKUP, NENC, CENC
(spec/42_field_codec.md). -/

namespace Sys2Proof.Machine

/-! ### Characters (R96 to R100) -/

/-- `CharIndex(c)`, in the closed form of R97. -/
def charIndex (c : Byte) : Option Sym :=
  let n := c.toNat
  if 0x30 ≤ n ∧ n ≤ 0x39 then some (BitVec.ofNat 6 (n - 0x30))
  else if 0x41 ≤ n ∧ n ≤ 0x5A then some (BitVec.ofNat 6 (n - 0x37))
  else if 0x61 ≤ n ∧ n ≤ 0x7A then some (BitVec.ofNat 6 (n - 0x3D))
  else if n = 0x20 then some 62
  else if n = 0x23 then some 63
  else none

/-- `IsDigit(c)` (R98). -/
def isDigit (c : Byte) : Bool := decide (0x30 ≤ c.toNat) && decide (c.toNat ≤ 0x39)

/-- `DigitVal(c) = c - 0x30` (R98), of use only where `isDigit c`. -/
def digitVal (c : Byte) : Fin 10 := Fin.ofNat 10 (c.toNat - 0x30)

/-- `NEnc(c) = N_TABLE[DigitVal(c)]`, defined only for a digit (R99). -/
def nEnc (cfg : Cfg) (c : Byte) : Pair := cfg.nTable[digitVal c]

/-- `CEnc(c) = C_TABLE[CharIndex(c)]`; `none` where it raises ENC_NOT_IN_ALPHABET (R100). -/
def cEnc (cfg : Cfg) (c : Byte) : Option Triple :=
  match charIndex c with
  | none => none
  | some i => some (tableGet cfg.cTable i)

/-! ### Fields (R103 to R109) -/

/-- `10 * DigitVal(s[0]) + DigitVal(s[1])` (R104). -/
def fccValue (c0 c1 : Byte) : Nat := 10 * (digitVal c0).val + (digitVal c1).val

/-- The type whose row has the FCC value (R104). The three values are distinct in an admitted configuration (R8 (f)). -/
def typeOfFcc (tt : TypeTable) (fcc : Nat) : Option BarcodeType :=
  if fcc = tt.standard.fcc then some .standard
  else if fcc = tt.type59.fcc then some .type59
  else if fcc = tt.type62.fcc then some .type62
  else none

/-- The delivery point identifier s[2..10) (R103). -/
def dpidOf (s : List Byte) : List Byte := (s.drop 2).take 8

/-- The customer information s[10..n) (R103). -/
def customerOf (s : List Byte) : List Byte := s.drop 10

/-- Validation of the fixed fields, each check made only if the earlier ones passed (R104). -/
def validateFixed (cfg : Cfg) (s : List Byte) : Except ErrCode BarcodeType :=
  if s.length < 10 then .error .valTooShort
  else if !(s.take 2).all isDigit then .error .valBadFcc
  else if !(dpidOf s).all isDigit then .error .valBadDpid
  else
    match typeOfFcc cfg.typeTable (fccValue (s.getD 0 0) (s.getD 1 0)) with
    | none => .error .valUnknownType
    | some ty => .ok ty

/-- The digit-only classification of the customer field (R105). -/
def isNumeric (ci : List Byte) : Bool := !ci.isEmpty && ci.all isDigit

/-- The length check passes (R106). -/
def lengthOk (row : TypeRow) (ci : List Byte) : Bool :=
  if isNumeric ci then decide (ci.length ≤ row.maxDigits) else decide (ci.length ≤ row.maxChars)

/-- A run of digit characters through N_TABLE (R107). -/
def encodeNumeric (cfg : Cfg) (cs : List Byte) : List Digit := cs.flatMap (fun c => pairDigits (nEnc cfg c))

/-- A run of characters through C_TABLE, left to right; `none` at the first that is not in the alphabet (R107). -/
def encodeAlpha (cfg : Cfg) : List Byte → Option (List Digit)
  | [] => some []
  | c :: cs =>
    match cEnc cfg c with
    | none => none
    | some t =>
      match encodeAlpha cfg cs with
      | none => none
      | some ds => some (tripleDigits t ++ ds)

/-- `ciE` (R107). -/
def encodeCustomer (cfg : Cfg) (ci : List Byte) : Option (List Digit) :=
  if isNumeric ci then some (encodeNumeric cfg ci) else encodeAlpha cfg ci

/-- `ciP`: padding on the right with the digit 3 up to custBars; nothing is added if the string is that long (R108). -/
def padCustomer (row : TypeRow) (ciE : List Digit) : List Digit :=
  ciE ++ List.replicate (row.custBars - ciE.length) 3

/-- `body = fccE ++ dpidE ++ ciP ++ fill` (R107 to R109). -/
def bodyOf (cfg : Cfg) (row : TypeRow) (s : List Byte) (ciE : List Digit) : List Digit :=
  encodeNumeric cfg (s.take 2) ++ encodeNumeric cfg (dpidOf s) ++ padCustomer row ciE ++ List.replicate row.fillers 3

/-- `Codec(s, n)`, n the length of s: the type and the body, or the error raised (R109). -/
def codec (cfg : Cfg) (s : List Byte) : Except ErrCode (BarcodeType × List Digit) :=
  match validateFixed cfg s with
  | .error e => .error e
  | .ok ty =>
    let row := rowFor cfg.typeTable ty
    let ci := customerOf s
    if !lengthOk row ci then .error .valLengthExceeded
    else
      match encodeCustomer cfg ci with
      | none => .error .encNotInAlphabet
      | some ciE => .ok (ty, bodyOf cfg row s ciE)

/-! ### Commands -/

/-- CLOOKUP c (R110). -/
def execClookup (c : Byte) (s : State) : Host.Outcome State Fault Refusal :=
  match charIndex c with
  | none => .next (s.raise .encNotInAlphabet)
  | some i => .next (s.returnValue (i.setWidth 16))

/-- NENC c (R111). -/
def execNenc (c : Byte) (s : State) : Host.Outcome State Fault Refusal :=
  if isDigit c then .next (s.returnValue ((pack2 (nEnc s.cfg c)).setWidth 16))
  else .next (s.raise .encNotInAlphabet)

/-- CENC c (R112). -/
def execCenc (c : Byte) (s : State) : Host.Outcome State Fault Refusal :=
  match cEnc s.cfg c with
  | none => .next (s.raise .encNotInAlphabet)
  | some t => .next (s.returnValue ((pack3 t).setWidth 16))

end Sys2Proof.Machine
end

