-- ==== Sys2Proof/Machine/Gfe.lean ====
section
/-! DEFINITION. GFE, the GF(64) engine: table generator, multiply, and GFINIT, GFLOG, GFEXP, GFMUL (spec/40_gf_engine.md). -/

namespace Sys2Proof.Machine

/-- `x << 1`, reduced by GF_POLY when bit 6 comes up (R77). `x` is a 7-bit working value below 64. -/
def gfDouble (poly x : BitVec 7) : BitVec 7 :=
  let y := x <<< 1
  if y.getLsbD 6 then y ^^^ poly else y

/-- `n` rounds of the generator's loop, from round `i` on, with working value `x` (R77). -/
def genRounds (poly : BitVec 7) : Nat → Nat → BitVec 7 → Vector Sym 64 → Vector Sym 64 → Vector Sym 64 × Vector Sym 64
  | 0, _, _, log, alog => (log, alog)
  | n + 1, i, x, log, alog =>
    genRounds poly n (i + 1) (gfDouble poly x)
      (if i < 63 then tablePut log (x.setWidth 6) (BitVec.ofNat 6 i) else log)
      (tablePut alog (BitVec.ofNat 6 i) (x.setWidth 6))

/-- The tables (LOG, ALOG) the generator leaves over the tables it found: 64 rounds from x = 1, then LOG[0] <- 0 (R77). -/
def builtTables (poly : BitVec 7) (log alog : Vector Sym 64) : Vector Sym 64 × Vector Sym 64 :=
  let r := genRounds poly 64 0 1 log alog
  (tablePut r.1 0 0, r.2)

/-- `GenTables()` (R77). -/
def State.genTables (s : State) : State :=
  let r := builtTables s.cfg.gfPoly s.log s.alog
  s.setTables r.1 r.2

/-- `EnsureTables()` (R80). -/
def State.ensureTables (s : State) : State := if s.stat.ready then s else s.genTables

/-- `GfMul(a, b)` (R81). -/
def gfMul (log alog : Vector Sym 64) (a b : Sym) : Sym :=
  if a = 0 ∨ b = 0 then 0
  else tableGet alog (BitVec.ofNat 6 (((tableGet log a).toNat + (tableGet log b).toNat) % 63))

/-- GFINIT (R83). -/
def execGfinit (s : State) : Host.Outcome State Fault Refusal :=
  .next s.genTables.complete

/-- GFLOG a (R84). -/
def execGflog (a : Sym) (s : State) : Host.Outcome State Fault Refusal :=
  let s := s.ensureTables
  .next (s.returnValue ((tableGet s.log a).setWidth 16))

/-- GFEXP a (R85). -/
def execGfexp (a : Sym) (s : State) : Host.Outcome State Fault Refusal :=
  let s := s.ensureTables
  .next (s.returnValue ((tableGet s.alog a).setWidth 16))

/-- GFMUL a, b (R86). -/
def execGfmul (a b : Sym) (s : State) : Host.Outcome State Fault Refusal :=
  let s := s.ensureTables
  .next (s.returnValue ((gfMul s.log s.alog a b).setWidth 16))

end Sys2Proof.Machine
end

