-- ==== Sys2Proof/Machine/Plfsr.lean ====
section
/-! DEFINITION. PLFSR, the parity LFSR: the step, and PCLR, PFEED, PREAD (spec/41_parity_lfsr.md). -/

namespace Sys2Proof.Machine

/-- `LfsrStep(d)` as a function of the accumulator (R88): every right-hand side reads ACC as it was before the step. `mul` is
`GfMul` over the tables (R81), `coeff` is RS_COEFF. -/
def lfsrNext (mul : Sym → Sym → Sym) (coeff acc : Vector Sym 4) (d : Sym) : Vector Sym 4 :=
  let m := acc[3] ^^^ d
  ⟨#[mul m coeff[0], acc[0] ^^^ mul m coeff[1], acc[1] ^^^ mul m coeff[2], acc[2] ^^^ mul m coeff[3]], rfl⟩

/-- The LFSR fed with a sequence of symbols, left to right (R91). -/
def lfsrFeed (mul : Sym → Sym → Sym) (coeff : Vector Sym 4) : Vector Sym 4 → List Sym → Vector Sym 4
  | acc, [] => acc
  | acc, d :: ds => lfsrFeed mul coeff (lfsrNext mul coeff acc d) ds

/-- The cleared accumulator (R91, R93). -/
def accZero : Vector Sym 4 := ⟨#[0, 0, 0, 0], rfl⟩

/-- `CHK[k] = ACC[3 - k]` (R90, R95). -/
def checkSym (acc : Vector Sym 4) (k : BitVec 2) : Sym := acc[3 - k.toNat]'(by omega)

/-- `GfMul` over the state's tables. -/
def State.mul (s : State) : Sym → Sym → Sym := gfMul s.log s.alog

/-- PCLR (R93). -/
def execPclr (s : State) : Host.Outcome State Fault Refusal :=
  .next (s.setAcc accZero).complete

/-- PFEED a (R94). -/
def execPfeed (a : Sym) (s : State) : Host.Outcome State Fault Refusal :=
  let s := s.ensureTables
  .next (s.setAcc (lfsrNext s.mul s.cfg.rsCoeff s.acc a)).complete

/-- PREAD k (R95). -/
def execPread (k : BitVec 2) (s : State) : Host.Outcome State Fault Refusal :=
  .next (s.returnValue ((checkSym s.acc k).setWidth 16))

end Sys2Proof.Machine
end

