-- ==== Sys2Proof/Machine/Sasm.lean ====
section
/-! DEFINITION. SASM, the symbol assembler: grouping, check-symbol expansion, framing, and PACK, BAREXP, ENCODE
(spec/43_symbol_assembler.md). -/

namespace Sys2Proof.Machine

/-- The body in groups of three digits, each packed into a symbol, left to right (R114). It is called on a body whose length is
a multiple of 3 (R115); a last group of one or two digits would be left out. -/
def groupSyms : List Digit → List Sym
  | d0 :: d1 :: d2 :: rest => pack3 ⟨d0, d1, d2⟩ :: groupSyms rest
  | _ => []

/-- `BarExp(v) = BAR_TABLE[v]` (R117). -/
def barExp (cfg : Cfg) (v : Sym) : Triple := tableGet cfg.barTable v

/-- `par`: the four check symbols of the accumulator expanded, most significant first, 12 digits (R90, R117). -/
def parityDigits (cfg : Cfg) (acc : Vector Sym 4) : List Digit :=
  tripleDigits (barExp cfg (checkSym acc 0)) ++ tripleDigits (barExp cfg (checkSym acc 1)) ++
    tripleDigits (barExp cfg (checkSym acc 2)) ++ tripleDigits (barExp cfg (checkSym acc 3))

/-- The start and stop sentinel "13" (R118). -/
def sentinel : List Digit := [1, 3]

/-- `out = "13" ++ body ++ par ++ "13"` (R118). -/
def framed (body par : List Digit) : List Digit := sentinel ++ body ++ par ++ sentinel

/-- What ENCODE does once the codec has passed: the INTERNAL check, the parity, the framing and the writes (R115, R122). -/
def State.assemble (s : State) (ty : BarcodeType) (body : List Digit) : State :=
  if body.length % 3 = 0 then
    let acc := lfsrFeed s.mul s.cfg.rsCoeff accZero (groupSyms body)
    (s.setAcc acc).deliver ty (framed body (parityDigits s.cfg acc))
  else s.raiseEncode .internal

/-- PACK d0, d1, d2 (R120). -/
def execPack (d0 d1 d2 : Digit) (s : State) : Host.Outcome State Fault Refusal :=
  .next (s.returnValue ((pack3 ⟨d0, d1, d2⟩).setWidth 16))

/-- BAREXP a (R121). -/
def execBarexp (a : Sym) (s : State) : Host.Outcome State Fault Refusal :=
  .next (s.returnValue ((pack3 (barExp s.cfg a)).setWidth 16))

/-- ENCODE (R122): first-use tables, the ILEN check, the read of IBUF[0..ILEN) in full (R54; an unwritten entry faults, R32,
R158), the codec, and the assembly. -/
def execEncode (s : State) : Host.Outcome State Fault Refusal :=
  let s := s.ensureTables
  if s.cfg.ibufSize < s.ilen.toNat then .next (s.raiseEncode .bufRange)
  else
    match readEntries s.ibuf 0 s.ilen.toNat with
    | .error i => .fault (.unwrittenEntry .ibuf i)
    | .ok str =>
      match codec s.cfg str with
      | .error e => .next (s.raiseEncode e)
      | .ok (ty, body) => .next (s.assemble ty body)

end Sys2Proof.Machine
end

