-- ==== Sys2Proof/Machine/Dispatch.lean ====
section
/-! DEFINITION. One arm per command. -/

namespace Sys2Proof.Machine

/-- The meaning of a command. -/
def exec (i : Instr) (s : State) : Host.Outcome State Fault Refusal :=
  match i with
  | .nop => Sys2Proof.Machine.execNop s
  | .gfinit => Sys2Proof.Machine.execGfinit s
  | .gflog a => Sys2Proof.Machine.execGflog a s
  | .gfexp a => Sys2Proof.Machine.execGfexp a s
  | .gfmul a b => Sys2Proof.Machine.execGfmul a b s
  | .pclr => Sys2Proof.Machine.execPclr s
  | .pfeed a => Sys2Proof.Machine.execPfeed a s
  | .pread k => Sys2Proof.Machine.execPread k s
  | .clookup c => Sys2Proof.Machine.execClookup c s
  | .nenc c => Sys2Proof.Machine.execNenc c s
  | .cenc c => Sys2Proof.Machine.execCenc c s
  | .barexp a => Sys2Proof.Machine.execBarexp a s
  | .pack d0 d1 d2 => Sys2Proof.Machine.execPack d0 d1 d2 s
  | .barshape k => Sys2Proof.Machine.execBarshape k s
  | .encode => Sys2Proof.Machine.execEncode s
  | .illegal w => Sys2Proof.Machine.execIllegal w s

end Sys2Proof.Machine
end

