-- ==== Sys2Proof/Machine/HostBus.lean ====
section
/-! DEFINITION. The host bus (spec/20_memory.md): the address map, host reads, host writes, and one step of the machine. -/

namespace Sys2Proof.Machine

/-- What a host address names (R36). -/
inductive HostReg where
  | cmd
  | res
  | stat
  | ilen
  | olen
  | ibuf (i : Nat)
  | obuf (i : Nat)
  | reserved
deriving DecidableEq, Repr

/-- The host address map (R36). It is fixed, whatever IBUF_SIZE and OBUF_SIZE are: log entry 7. -/
def hostMap (a : Addr) : HostReg :=
  let n := a.toNat
  if n = 0x00 then .cmd
  else if n = 0x01 then .res
  else if n = 0x02 then .stat
  else if n = 0x03 then .ilen
  else if n = 0x04 then .olen
  else if 0x40 ≤ n ∧ n ≤ 0x7F then .ibuf (n - 0x40)
  else if 0x80 ≤ n ∧ n ≤ 0xC2 then .obuf (n - 0x80)
  else .reserved

/-- The word a host read returns (R17, R18, R24 to R26, R36 to R39), or the fault of a read of an entry not written since reset
(R32). -/
def hostRead (s : State) (a : Addr) : Except Fault Word :=
  match hostMap a with
  | .cmd => .ok 0
  | .res => .ok s.res
  | .stat => .ok (statWord s.stat)
  | .ilen => .ok (s.ilen.setWidth 16)
  | .olen => .ok (s.olen.setWidth 16)
  | .ibuf i =>
    match s.ibuf.read? i with
    | some b => .ok (b.setWidth 16)
    | none => .error (.unwrittenEntry .ibuf i)
  | .obuf i =>
    match s.obuf.read? i with
    | some b => .ok ((b.setWidth 2).setWidth 16)
    | none => .error (.unwrittenEntry .obuf i)
  | .reserved => .ok 0

/-- A host write (R24, R36 to R41): to CMD it issues the command, to ILEN and IBUF it stores, elsewhere it changes nothing. -/
def hostWrite (s : State) (a : Addr) (v : Word) : Host.Outcome State Fault Refusal :=
  match hostMap a with
  | .cmd => exec (decode v) s
  | .res => .next s
  | .stat => .next s
  | .ilen => .next (s.setIlen v)
  | .olen => .next s
  | .ibuf i => .next (s.putIbuf i v)
  | .obuf _ => .next s
  | .reserved => .next s

/-- One host operation takes effect, to completion (R41, R46, R48), or RST (R148). -/
def hostStep (s : State) : HostOp → Host.Outcome State Fault Refusal
  | .read a =>
    match hostRead s a with
    | .ok w => .next (s.noteRead w)
    | .error f => .fault f
  | .write a v => hostWrite s a v
  | .reset => .next s.rst

/-- One step: an ill-formed configuration is refused (R8); with no operation waiting the core holds its state (R147; log
entry 9); otherwise the oldest waiting operation takes effect (R48). -/
def machineStep (s : State) : Host.Outcome State Fault Refusal :=
  if admits s.cfg then
    match s.pending with
    | [] => .next s
    | op :: rest => hostStep (s.setPending rest) op
  else .refused .illFormedConfig

/-- The host issues the command whose bits are `w` next: a write to CMD before every operation still waiting (R26, R71). There is
no program memory and no program counter (R16). Log entry 3. -/
def State.issueNext (s : State) (nbits w : Nat) : State :=
  s.setPending (.write 0x00 (BitVec.ofNat 16 (w % 2 ^ nbits)) :: s.pending)

end Sys2Proof.Machine
end

