-- ==== Sys2Proof/Machine/Step.lean ====
section
/-! DEFINITION. The step function, and the placing of a command where the next step takes it. -/

namespace Sys2Proof.Machine

/-- One step of the machine: the host's next operation takes effect. -/
def step (s : State) : Host.Outcome State Fault Refusal := machineStep s

/-- The state in which the next step takes the command whose bits are `w`. AP4S-CORE fetches nothing (R16): the command is the
data of the host's next write to CMD (R41, R51). Log entry 3. -/
def State.withFetchWord (s : State) (nbits w : Nat) : State := s.issueNext nbits w

end Sys2Proof.Machine
end

