-- ==== Sys2Proof/Machine/Assembler.lean ====
section
/-! DEFINITION. The host-program syntax: lines, pseudo-instructions and their expansion into host operations, and the text of a
line (spec/30_encoding.md R69 to R74). What the spec leaves open of the text is in log entry 16. -/

namespace Sys2Proof.Machine

/-! ### Lines and their expansion (R70 to R74) -/

/-- One line of a host program. -/
inductive AsmLine where
  /-- An empty line, or a comment only (R70). -/
  | blank
  /-- A command mnemonic with its operands (R69, R71). -/
  | command (i : Instr)
  /-- `CMDW w` (R72). -/
  | cmdw (w : Word)
  /-- `LOADSTR "s"` (R73). -/
  | loadstr (bytes : List Byte)
  /-- `PARITY s0, ..., s(m-1)` (R74). -/
  | parity (syms : List Sym)
  /-- `WR a, v` (R70). -/
  | wr (a : Addr) (v : Word)
  /-- `RD a`, or `RD a -> v` with the word it is to give (R70). -/
  | rd (a : Addr) (expect : Option Word)
deriving DecidableEq, Repr

/-- A host write of `w` to CMD (R71). -/
def issueWord (w : Word) : HostOp := .write 0x00 w

/-- `WR 0x40 + i, zext_16(s[i])` for the bytes of a string, from entry `i` on (R73). -/
def loadBytes (i : Nat) : List Byte → List HostOp
  | [] => []
  | b :: bs => .write (BitVec.ofNat 8 (0x40 + i)) (b.setWidth 16) :: loadBytes (i + 1) bs

/-- The host operations a line stands for; none where the line is refused: a string longer than 64 bytes has no expansion
(R73). The check of `RD a -> v` is no effect (R70). -/
def expandLine : AsmLine → Option (List HostOp)
  | .blank => some []
  | .command i => some [issueWord (encode i)]
  | .cmdw w => some [issueWord w]
  | .loadstr bytes =>
    if bytes.length ≤ 64 then some (loadBytes 0 bytes ++ [.write 0x03 (BitVec.ofNat 16 bytes.length)]) else none
  | .parity syms => some (issueWord (encode .pclr) :: syms.map (fun a => issueWord (encode (.pfeed a))))
  | .wr a v => some [.write a v]
  | .rd a _ => some [.read a]

/-- The words the reads of a program are to give, oldest first; `none` for a read with no check (R70). -/
def expectedReads : List AsmLine → List (Option Word)
  | [] => []
  | .rd _ e :: rest => e :: expectedReads rest
  | .blank :: rest => expectedReads rest
  | .command _ :: rest => expectedReads rest
  | .cmdw _ :: rest => expectedReads rest
  | .loadstr _ :: rest => expectedReads rest
  | .parity _ :: rest => expectedReads rest
  | .wr _ _ :: rest => expectedReads rest

/-! ### Text to tokens (R69, R70, R73) -/

/-- A token of a line. -/
inductive Tok where
  /-- A mnemonic or a number. -/
  | name (cs : List Char)
  /-- A quoted character (R69). -/
  | chr (c : Char)
  /-- A quoted string (R73). -/
  | str (cs : List Char)
  | comma
  /-- The `->` of a checked read (R70). -/
  | arrow
deriving DecidableEq, Repr

/-- Where the scan of a line stands; characters taken so far are in reverse. -/
inductive ScanMode where
  | gap
  | inName (acc : List Char)
  | quoteOpen
  | quoteChar (c : Char)
  | inString (acc : List Char)
  | dash
deriving DecidableEq, Repr

/-- The tokens of a line up to its end or its comment; none where it is no line. DESIGN CHOICE, log entry 16: between single
quotes any one character stands, the single quote itself among them, so `'''` is the code 0x27 (R69 leaves it open); a string
ends at the next double quote (R73); and a `->` stands apart from the operand before it (R70). -/
def scanLine : ScanMode → List Char → Option (List Tok)
  | .gap, [] => some []
  | .inName acc, [] => some [.name acc.reverse]
  | .quoteOpen, [] => none
  | .quoteChar _, [] => none
  | .inString _, [] => none
  | .dash, [] => none
  | .gap, c :: cs =>
    if c = ' ' then scanLine .gap cs
    else if c = ';' then some []
    else if c = ',' then (scanLine .gap cs).map (Tok.comma :: ·)
    else if c = '"' then scanLine (.inString []) cs
    else if c = '\'' then scanLine .quoteOpen cs
    else if c = '-' then scanLine .dash cs
    else scanLine (.inName [c]) cs
  | .inName acc, c :: cs =>
    if c = ' ' then (scanLine .gap cs).map (Tok.name acc.reverse :: ·)
    else if c = ';' then some [.name acc.reverse]
    else if c = ',' then (scanLine .gap cs).map (fun ts => Tok.name acc.reverse :: .comma :: ts)
    else scanLine (.inName (c :: acc)) cs
  | .quoteOpen, c :: cs => scanLine (.quoteChar c) cs
  | .quoteChar q, c :: cs => if c = '\'' then (scanLine .gap cs).map (Tok.chr q :: ·) else none
  | .inString acc, c :: cs =>
    if c = '"' then (scanLine .gap cs).map (Tok.str acc.reverse :: ·) else scanLine (.inString (c :: acc)) cs
  | .dash, c :: cs => if c = '>' then (scanLine .gap cs).map (Tok.arrow :: ·) else none

/-! ### Numbers (R69) -/

/-- The value of a digit character in a base, if it is one. -/
def digitOf (base : Nat) (c : Char) : Option Nat :=
  let n := c.toNat
  let v :=
    if 0x30 ≤ n ∧ n ≤ 0x39 then n - 0x30
    else if 0x41 ≤ n ∧ n ≤ 0x46 then n - 0x37
    else if 0x61 ≤ n ∧ n ≤ 0x66 then n - 0x57
    else base
  if v < base then some v else none

/-- The value of a run of digits, after the digits already read. -/
def digitsFrom (base : Nat) : Nat → List Char → Option Nat
  | acc, [] => some acc
  | acc, c :: cs =>
    match digitOf base c with
    | none => none
    | some v => digitsFrom base (acc * base + v) cs

/-- A numeric operand: decimal, or hexadecimal with prefix 0x (R69), with leading zeros and digits of either case (DESIGN CHOICE,
log entry 16). -/
def numberOf : List Char → Option Nat
  | [] => none
  | '0' :: 'x' :: [] => none
  | '0' :: 'x' :: ds => digitsFrom 16 0 ds
  | ds => digitsFrom 10 0 ds

/-- The ASCII code of a character (R69, R73); none for a character that has none. -/
def asciiOf (c : Char) : Option Nat := if c.toNat < 128 then some c.toNat else none

/-- The value of an operand token: a number, or a quoted character's code (R69). DESIGN CHOICE, log entry 16: R69 lets a
character operand be a quoted character and is silent on quoting any other operand; the model takes a quoted character for every
operand, so `GFLOG '#'` is `GFLOG 35`, and `WR` and `RD` take one too. -/
def operandOf : Tok → Option Nat
  | .name cs => numberOf cs
  | .chr c => asciiOf c
  | .str _ => none
  | .comma => none
  | .arrow => none

/-- A value as a field of `n` bits; an operand outside its range is refused, not truncated (R69). -/
def ranged (n : Nat) (v : Nat) : Option (BitVec n) := if v < 2 ^ n then some (BitVec.ofNat n v) else none

/-- Operands separated by commas (R69). -/
def operandList : List Tok → Option (List Nat)
  | [] => some []
  | [t] => (operandOf t).map ([·])
  | t :: .comma :: rest =>
    match rest with
    | [] => none
    | _ :: _ =>
      match operandOf t, operandList rest with
      | some v, some vs => some (v :: vs)
      | _, _ => none
  | _ => none

/-! ### Tokens to a line (R69 to R74) -/

/-- A command of format N (R69). -/
def lineN (i : Instr) : List Nat → Option AsmLine
  | [] => some (.command i)
  | _ => none

/-- A command with one operand of `n` bits (formats A, C, K; R69). -/
def line1 (n : Nat) (f : BitVec n → Instr) : List Nat → Option AsmLine
  | [v] => (ranged n v).map (fun a => .command (f a))
  | _ => none

/-- GFMUL's two operands (R69). -/
def lineAB : List Nat → Option AsmLine
  | [v, w] =>
    match ranged 6 v, ranged 6 w with
    | some a, some b => some (.command (.gfmul a b))
    | _, _ => none
  | _ => none

/-- PACK's three operands (R69). -/
def lineD3 : List Nat → Option AsmLine
  | [u, v, w] =>
    match ranged 2 u, ranged 2 v, ranged 2 w with
    | some d0, some d1, some d2 => some (.command (.pack d0 d1 d2))
    | _, _, _ => none
  | _ => none

/-- `WR a, v` (R70). -/
def lineWr : List Nat → Option AsmLine
  | [a, v] =>
    match ranged 8 a, ranged 16 v with
    | some a, some v => some (.wr a v)
    | _, _ => none
  | _ => none

/-- `RD a` or `RD a -> v` (R70). -/
def lineRd : List Tok → Option AsmLine
  | [t] =>
    match operandOf t with
    | none => none
    | some a => (ranged 8 a).map (fun a => .rd a none)
  | [t, .arrow, u] =>
    match operandOf t, operandOf u with
    | some a, some v =>
      match ranged 8 a, ranged 16 v with
      | some a, some v => some (.rd a (some v))
      | _, _ => none
    | _, _ => none
  | _ => none

/-- `LOADSTR "s"`: at most 64 bytes, as ASCII (R73). -/
def lineLoadstr : List Tok → Option AsmLine
  | [.str cs] =>
    match cs.mapM asciiOf with
    | none => none
    | some ns => if ns.length ≤ 64 then some (.loadstr (ns.map (BitVec.ofNat 8))) else none
  | _ => none

/-- The line a mnemonic begins, from the tokens after it; none for a mnemonic that is none of R69 to R74. -/
def lineOf (mnemonic : List Char) (ts : List Tok) : Option AsmLine :=
  match mnemonic with
  | ['N', 'O', 'P'] => (operandList ts).bind (lineN .nop)
  | ['G', 'F', 'I', 'N', 'I', 'T'] => (operandList ts).bind (lineN .gfinit)
  | ['G', 'F', 'L', 'O', 'G'] => (operandList ts).bind (line1 6 .gflog)
  | ['G', 'F', 'E', 'X', 'P'] => (operandList ts).bind (line1 6 .gfexp)
  | ['G', 'F', 'M', 'U', 'L'] => (operandList ts).bind lineAB
  | ['P', 'C', 'L', 'R'] => (operandList ts).bind (lineN .pclr)
  | ['P', 'F', 'E', 'E', 'D'] => (operandList ts).bind (line1 6 .pfeed)
  | ['P', 'R', 'E', 'A', 'D'] => (operandList ts).bind (line1 2 .pread)
  | ['C', 'L', 'O', 'O', 'K', 'U', 'P'] => (operandList ts).bind (line1 8 .clookup)
  | ['N', 'E', 'N', 'C'] => (operandList ts).bind (line1 8 .nenc)
  | ['C', 'E', 'N', 'C'] => (operandList ts).bind (line1 8 .cenc)
  | ['B', 'A', 'R', 'E', 'X', 'P'] => (operandList ts).bind (line1 6 .barexp)
  | ['P', 'A', 'C', 'K'] => (operandList ts).bind lineD3
  | ['B', 'A', 'R', 'S', 'H', 'A', 'P', 'E'] => (operandList ts).bind (line1 2 .barshape)
  | ['E', 'N', 'C', 'O', 'D', 'E'] => (operandList ts).bind (lineN .encode)
  | ['C', 'M', 'D', 'W'] =>
    match operandList ts with
    | some [w] => (ranged 16 w).map .cmdw
    | _ => none
  | ['L', 'O', 'A', 'D', 'S', 'T', 'R'] => lineLoadstr ts
  | ['P', 'A', 'R', 'I', 'T', 'Y'] =>
    match operandList ts with
    | some vs => (vs.mapM (ranged 6)).map .parity
    | none => none
  | ['W', 'R'] => (operandList ts).bind lineWr
  | ['R', 'D'] => lineRd ts
  | _ => none

/-- A line of a host program from its text; none where it is refused (R69, R70). -/
def parseLine (text : List Char) : Option AsmLine :=
  match scanLine .gap text with
  | none => none
  | some [] => some .blank
  | some (.name m :: ts) => lineOf m ts
  | some (_ :: _) => none

/-- The host operations of a program, line by line in order (R70); none where a line is refused. -/
def assemble : List (List Char) → Option (List HostOp)
  | [] => some []
  | l :: ls =>
    match (parseLine l).bind expandLine, assemble ls with
    | some ops, some rest => some (ops ++ rest)
    | _, _ => none

/-! ### The text of a command (R69, R72) -/

/-- A hexadecimal digit character, upper case. -/
def hexChar (n : Nat) : Char := if n < 10 then Char.ofNat (0x30 + n) else Char.ofNat (0x37 + n)

/-- A number below 100, in decimal. -/
def decChars (n : Nat) : List Char :=
  if n < 10 then [hexChar n] else [hexChar (n / 10), hexChar (n % 10)]

/-- A byte in hexadecimal with prefix 0x. -/
def byteChars (c : Byte) : List Char := ['0', 'x', hexChar (c.toNat / 16), hexChar (c.toNat % 16)]

/-- A word in hexadecimal, four upper-case digits with prefix 0x (R72). -/
def wordChars (w : Word) : List Char :=
  ['0', 'x', hexChar (w.toNat / 4096), hexChar (w.toNat / 256 % 16), hexChar (w.toNat / 16 % 16), hexChar (w.toNat % 16)]

/-- The text a disassembler prints for a command (R69); for an illegal word `CMDW 0xNNNN` (R72). Symbols, indices and digits are
printed in decimal, characters in hexadecimal (DESIGN CHOICE, log entry 16). -/
def printInstr : Instr → List Char
  | .nop => ['N', 'O', 'P']
  | .gfinit => ['G', 'F', 'I', 'N', 'I', 'T']
  | .gflog a => ['G', 'F', 'L', 'O', 'G', ' '] ++ decChars a.toNat
  | .gfexp a => ['G', 'F', 'E', 'X', 'P', ' '] ++ decChars a.toNat
  | .gfmul a b => ['G', 'F', 'M', 'U', 'L', ' '] ++ decChars a.toNat ++ [',', ' '] ++ decChars b.toNat
  | .pclr => ['P', 'C', 'L', 'R']
  | .pfeed a => ['P', 'F', 'E', 'E', 'D', ' '] ++ decChars a.toNat
  | .pread k => ['P', 'R', 'E', 'A', 'D', ' '] ++ decChars k.toNat
  | .clookup c => ['C', 'L', 'O', 'O', 'K', 'U', 'P', ' '] ++ byteChars c
  | .nenc c => ['N', 'E', 'N', 'C', ' '] ++ byteChars c
  | .cenc c => ['C', 'E', 'N', 'C', ' '] ++ byteChars c
  | .barexp a => ['B', 'A', 'R', 'E', 'X', 'P', ' '] ++ decChars a.toNat
  | .pack d0 d1 d2 =>
    ['P', 'A', 'C', 'K', ' '] ++ decChars d0.toNat ++ [',', ' '] ++ decChars d1.toNat ++ [',', ' '] ++ decChars d2.toNat
  | .barshape k => ['B', 'A', 'R', 'S', 'H', 'A', 'P', 'E', ' '] ++ decChars k.toNat
  | .encode => ['E', 'N', 'C', 'O', 'D', 'E']
  | .illegal w => ['C', 'M', 'D', 'W', ' '] ++ wordChars w

/-- Disassembly of a word: its decoded command's text (R72). -/
def disassemble (w : Word) : List Char := printInstr (decode w)

end Sys2Proof.Machine
end

