-- ==== Sys2Proof/Safety.lean ====
section
/-! DEFINITION. What statements about the machine are said in: what a command leaves as it was, the input a state holds, the
field and polynomial arithmetic the tables and the LFSR stand for, and the invariant of every step. Nothing here is used by the
machine. -/

namespace Sys2Proof.Machine

/-! ### Frames -/

/-- What no command writes: the configuration, ILEN and every IBUF entry (R14, R24, R30), and the host's own two lists. -/
structure InputKept (s t : State) : Prop where
  cfg : t.cfg = s.cfg
  ilen : t.ilen = s.ilen
  ibuf : ∀ i, t.ibuf.read? i = s.ibuf.read? i
  pending : t.pending = s.pending
  reads : t.reads = s.reads

/-- What only ENCODE writes: OLEN, every OBUF entry, BTYPE and VALID (R20, R21, R25, R31). -/
structure OutputKept (s t : State) : Prop where
  olen : t.olen = s.olen
  obuf : ∀ i, t.obuf.read? i = s.obuf.read? i
  btype : t.stat.btype = s.stat.btype
  valid : t.stat.valid = s.stat.valid

/-- What only the table generator writes: LOG, ALOG and READY (R22, R28, R29). -/
structure TablesKept (s t : State) : Prop where
  log : t.log = s.log
  alog : t.alog = s.alog
  ready : t.stat.ready = s.stat.ready

/-! ### The field GF(64) and its tables (R75 to R82) -/

/-- The product of two elements as polynomials over GF(2), not yet reduced: the exclusive or of `a << i` over the bits i of
`b`. -/
def carrylessMul (a b : Sym) : BitVec 11 :=
  (List.range 6).foldl (fun v i => if b.getLsbD i then v ^^^ (a.setWidth 11 <<< i) else v) 0

/-- Reduction of a polynomial of degree at most 10 modulo a polynomial of degree 6, from the highest bit down. -/
def polyReduce (poly : BitVec 7) (v : BitVec 11) : BitVec 11 :=
  [4, 3, 2, 1, 0].foldl (fun v i => if v.getLsbD (6 + i) then v ^^^ (poly.setWidth 11 <<< i) else v) v

/-- The product of two elements as polynomials over GF(2), reduced modulo `poly` (R75, R82). -/
def fieldMul (poly : BitVec 7) (a b : Sym) : Sym := (polyReduce poly (carrylessMul a b)).setWidth 6

/-- α^n, α the element 2 (R75, R78). -/
def alphaPow (poly : BitVec 7) : Nat → Sym
  | 0 => 1
  | n + 1 => fieldMul poly (alphaPow poly n) 2

/-- LOG and ALOG are the tables of R78: the powers of α, the exponents of the non-zero elements, and LOG[0] = 0. -/
structure TablesBuilt (poly : BitVec 7) (log alog : Vector Sym 64) : Prop where
  alog_pow : ∀ i : Sym, tableGet alog i = alphaPow poly i.toNat
  log_pow : ∀ i : Sym, i.toNat < 63 → tableGet log (alphaPow poly i.toNat) = i
  log_zero : tableGet log 0 = 0

/-- What first-use initialisation leaves (R80): READY is 1, the tables are the generator's, and tables that were built already are
as they were. -/
structure TablesEnsured (s t : State) : Prop where
  ready : t.stat.ready = true
  built : TablesBuilt s.cfg.gfPoly t.log t.alog
  kept : s.stat.ready = true → TablesKept s t

/-! ### Polynomials over GF(64) (R92): coefficient lists, that of x^0 first -/

/-- The sum of two polynomials. -/
def polyAdd : List Sym → List Sym → List Sym
  | [], q => q
  | p, [] => p
  | a :: p, b :: q => (a ^^^ b) :: polyAdd p q

/-- The product of a quotient, its highest coefficient first, with g(x) = x^4 + c3 x^3 + c2 x^2 + c1 x + c0 (R92), after what
has been multiplied so far. -/
def timesGenerator (poly : BitVec 7) (coeff : Vector Sym 4) : List Sym → List Sym → List Sym
  | p, [] => p
  | p, m :: ms =>
    timesGenerator poly coeff
      (polyAdd (0 :: p)
        [fieldMul poly m coeff[0], fieldMul poly m coeff[1], fieldMul poly m coeff[2], fieldMul poly m coeff[3], m]) ms

/-! ### Characters and the input of ENCODE -/

/-- The bytes from `lo` on, `n` of them. -/
def byteRun (lo n : Nat) : List Byte := (List.range n).map (fun j => BitVec.ofNat 8 (lo + j))

/-- The alphabet in its order (R96): `0` to `9`, `A` to `Z`, `a` to `z`, space, `#`. -/
def alphabet : List Byte := byteRun 0x30 10 ++ byteRun 0x41 26 ++ byteRun 0x61 26 ++ [0x20, 0x23]

/-- The byte is the code of a decimal digit, `0` to `9` (R98). -/
abbrev DigitByte (c : Byte) : Prop := 0x30 ≤ c.toNat ∧ c.toNat ≤ 0x39

/-- IBUF[0..ILEN) holds the string `str` (R30, R54). -/
def InputIs (s : State) (str : List Byte) : Prop :=
  str.length = s.ilen.toNat ∧ ∀ i (h : i < str.length), s.ibuf.read? i = some str[i]

/-- OBUF[0..n), n its length, holds the string of digits `out` (R31). -/
def OutputIs (s : State) (out : List Digit) : Prop :=
  ∀ i (h : i < out.length), s.obuf.read? i = some (out[i].setWidth 8)

/-- The input is well formed for the type `ty`: what R104 to R107 ask of it, in the rules' own terms. -/
structure InputFor (cfg : Cfg) (ty : BarcodeType) (str : List Byte) : Prop where
  long : 10 ≤ str.length
  digits : ∀ i, i < 10 → DigitByte (str.getD i 0)
  fcc : (rowFor cfg.typeTable ty).fcc = 10 * ((str.getD 0 0).toNat - 0x30) + ((str.getD 1 0).toNat - 0x30)
  customer :
    ((∀ c ∈ str.drop 10, DigitByte c) ∧ str.length - 10 ≤ (rowFor cfg.typeTable ty).maxDigits ∧ 10 < str.length) ∨
    ((str.length = 10 ∨ ∃ c ∈ str.drop 10, ¬ DigitByte c) ∧ str.length - 10 ≤ (rowFor cfg.typeTable ty).maxChars ∧
      ∀ c ∈ str.drop 10, c ∈ alphabet)

/-- The N_TABLE code of a digit character (R99). -/
def numericCode (cfg : Cfg) (c : Byte) : List Digit :=
  match cfg.nTable[c.toNat - 0x30]? with
  | some p => [p.d0, p.d1]
  | none => []

/-- The C_TABLE code of an alphabet character, by its position in the alphabet (R100). -/
def alphaCode (cfg : Cfg) (c : Byte) : List Digit :=
  match cfg.cTable[alphabet.idxOf c]? with
  | some t => [t.d0, t.d1, t.d2]
  | none => []

/-- The encoded customer field: through N_TABLE where every character is a digit, else through C_TABLE (R105, R107). -/
def customerCode (cfg : Cfg) (ci : List Byte) : List Digit :=
  if ∀ c ∈ ci, DigitByte c then ci.flatMap (numericCode cfg) else ci.flatMap (alphaCode cfg)

/-- The body the rules give an input of type `ty` (R107 to R109). -/
def bodyString (cfg : Cfg) (ty : BarcodeType) (str : List Byte) : List Digit :=
  (str.take 10).flatMap (numericCode cfg) ++ customerCode cfg (str.drop 10) ++
    List.replicate ((rowFor cfg.typeTable ty).custBars - (customerCode cfg (str.drop 10)).length) 3 ++
    List.replicate (rowFor cfg.typeTable ty).fillers 3

/-- The accumulator after a body's symbols, by field multiplication (R88, R91, R114). -/
def parityOf (cfg : Cfg) (body : List Digit) : Vector Sym 4 :=
  lfsrFeed (fieldMul cfg.gfPoly) cfg.rsCoeff accZero (groupSyms body)

/-- The check symbols of an accumulator, ACC[3] first, each through BAR_TABLE (R90, R117). -/
def checkDigits (cfg : Cfg) (acc : Vector Sym 4) : List Digit :=
  acc.toList.reverse.flatMap (fun v =>
    match cfg.barTable[v.toNat]? with
    | some t => [t.d0, t.d1, t.d2]
    | none => [])

/-- The framed string the rules give an input of type `ty` (R118). -/
def framedString (cfg : Cfg) (ty : BarcodeType) (str : List Byte) : List Digit :=
  [1, 3] ++ bodyString cfg ty str ++ checkDigits cfg (parityOf cfg (bodyString cfg ty str)) ++ [1, 3]

/-- What an ENCODE that raises the error of code `e` leaves (R134, R135, R137). -/
structure EncodeFailed (s t : State) (e : BitVec 4) : Prop where
  err : t.stat.err = e
  valid : t.stat.valid = false
  btype : t.stat.btype = 0
  olen : t.olen = 0
  res : t.res = s.res
  acc : t.acc = s.acc
  obuf : ∀ i, t.obuf.read? i = s.obuf.read? i
  input : InputKept s t
  ready : t.stat.ready = true
  tables : s.stat.ready = true → TablesKept s t

/-- The number of digits of a type's body: FCC and DPID, customer field, fillers (R109). -/
def bodyLength (row : TypeRow) : Nat := 20 + row.custBars + row.fillers

/-! ### The invariant of every step -/

/-- What every step keeps, from any state that has it. -/
structure State.Inv (s : State) : Prop where
  /-- The configuration is admitted (R8). -/
  admitted : admits s.cfg = true
  /-- IBUF is in canonical form. -/
  ibuf_wf : s.ibuf.wf = true
  /-- OBUF is in canonical form. -/
  obuf_wf : s.obuf.wf = true
  /-- IBUF holds nothing outside the host's window (R36, R38). Log entry 7. -/
  ibuf_window : ∀ i, 64 ≤ i → s.ibuf.read? i = none
  /-- OBUF holds nothing at or above OBUF_SIZE (R31). -/
  obuf_size : ∀ i, s.cfg.obufSize ≤ i → s.obuf.read? i = none
  /-- An OBUF entry is a digit (R31). -/
  obuf_digit : ∀ i b, s.obuf.read? i = some b → b.toNat < 4
  /-- ERR is never 10 to 15 (R19; U7). -/
  err_legal : s.stat.err.toNat ≤ 9
  /-- READY is 1 only when LOG and ALOG hold the generator's tables (R22, R78). -/
  ready_tables : s.stat.ready = true → TablesBuilt s.cfg.gfPoly s.log s.alog
  /-- While VALID is 0, OLEN is 0 and BTYPE is none (R20, R21). -/
  invalid_output : s.stat.valid = false → s.olen = 0 ∧ s.stat.btype = 0
  /-- While VALID is 1, BTYPE names a type, OLEN is that type's framed length, every entry below OLEN is written, and the two ends
  hold the sentinel "13" (R20, R21, R118, R119). -/
  valid_output : s.stat.valid = true →
    ∃ ty, s.stat.btype = btypeBits ty ∧
      s.olen.toNat = bodyLength (rowFor s.cfg.typeTable ty) + 16 ∧
      (∀ i, i < s.olen.toNat → (s.obuf.read? i).isSome = true) ∧
      s.obuf.read? 0 = some 1 ∧ s.obuf.read? 1 = some 3 ∧
      s.obuf.read? (s.olen.toNat - 2) = some 1 ∧ s.obuf.read? (s.olen.toNat - 1) = some 3

end Sys2Proof.Machine
end

