-- ==== Sys2Proof/Certificates/Slice0/Obligations.lean ====
section
/-! DEFINITION. The statements for the provers. -/

open Sys2Proof Sys2Proof.Machine

/-! ### Encoding -/

/-- Command words written out from the formats R56 to R61 and the opcode map R63 decode to the command they stand for. -/
def Obligations.SampleWordsDecode : Prop :=
  decode 0x0000 = .nop ∧ decode 0x1000 = .gfinit ∧ decode 0x2003 = .gflog 3 ∧ decode 0x303F = .gfexp 63 ∧
  decode 0x40A0 = .gfmul 2 32 ∧ decode 0x5000 = .pclr ∧ decode 0x6010 = .pfeed 16 ∧ decode 0x7003 = .pread 3 ∧
  decode 0x805A = .clookup 0x5A ∧ decode 0x9039 = .nenc 0x39 ∧ decode 0xA041 = .cenc 0x41 ∧ decode 0xB01B = .barexp 27 ∧
  decode 0xC123 = .pack 1 2 3 ∧ decode 0xD002 = .barshape 2 ∧ decode 0xE000 = .encode ∧
  decode 0x2040 = .illegal 0x2040 ∧ decode 0xF000 = .illegal 0xF000

/-- Decoding the word of a well-formed command gives the command back, every operand at every value (R56 to R63, R68). -/
def Obligations.EncodedCommandDecodes : Prop :=
  ∀ i : Instr, i.wf = true → decode (encode i) = i

/-- Every one of the 65536 words decodes to a well-formed command whose word it is, so no two words decode to one command
(R68, R72). -/
def Obligations.DecodedWordReencodes : Prop :=
  ∀ w : Word, (decode w).wf = true ∧ encode (decode w) = w

/-- R64: a word of OP 0x0 to 0xE with a bit set outside the operand fields of its format is illegal, and executing it sets
STAT.ERR to 8 and does nothing else. The list holds match and mask of the fifteen rows of R63. -/
def Obligations.ReservedBitsAreIllegal : Prop :=
  ∀ mm ∈ ([(0x0000, 0xFFFF), (0x1000, 0xFFFF), (0x2000, 0xFFC0), (0x3000, 0xFFC0), (0x4000, 0xF000), (0x5000, 0xFFFF),
      (0x6000, 0xFFC0), (0x7000, 0xFFFC), (0x8000, 0xFF00), (0x9000, 0xFF00), (0xA000, 0xFF00), (0xB000, 0xFFC0),
      (0xC000, 0xFCCC), (0xD000, 0xFFFC), (0xE000, 0xFFFF)] : List (Word × Word)),
    ∀ (w : Word) (s : State), w &&& 0xF000 = mm.1 → w &&& mm.2 ≠ mm.1 →
      decode w = .illegal w ∧ exec (decode w) s = .next { s with stat := { s.stat with err := 8 } }

/-- R65: every word of OP 0xF is illegal, and executing it sets STAT.ERR to 8 and does nothing else. -/
def Obligations.OpcodeFIsIllegal : Prop :=
  ∀ (w : Word) (s : State), w &&& 0xF000 = 0xF000 →
    decode w = .illegal w ∧ exec (decode w) s = .next { s with stat := { s.stat with err := 8 } }

/-- A word that agrees with the match of a row of R63 under its mask is legal: it decodes to a command that is not ILLEGAL
(R66, R68). -/
def Obligations.MatchingWordsAreLegal : Prop :=
  ∀ mm ∈ ([(0x0000, 0xFFFF), (0x1000, 0xFFFF), (0x2000, 0xFFC0), (0x3000, 0xFFC0), (0x4000, 0xF000), (0x5000, 0xFFFF),
      (0x6000, 0xFFC0), (0x7000, 0xFFFC), (0x8000, 0xFF00), (0x9000, 0xFF00), (0xA000, 0xFF00), (0xB000, 0xFFC0),
      (0xC000, 0xFCCC), (0xD000, 0xFFFC), (0xE000, 0xFFFF)] : List (Word × Word)),
    ∀ w : Word, w &&& mm.2 = mm.1 → ∀ v : Word, decode w ≠ .illegal v

/-! ### Control -/

/-- NOP completes in every state, clears STAT.ERR and changes nothing else (R128). -/
def Obligations.NopResult : Prop :=
  ∀ s : State, ∃ t, exec .nop s = .next t ∧ t.stat.err = 0 ∧ t.res = s.res ∧ t.acc = s.acc ∧
    InputKept s t ∧ OutputKept s t ∧ TablesKept s t

/-- ILLEGAL completes in every state with STAT.ERR 8, runs no table generator and changes nothing else (R129). -/
def Obligations.IllegalResult : Prop :=
  ∀ (w : Word) (s : State), ∃ t, exec (.illegal w) s = .next t ∧ t.stat.err = 8 ∧ t.res = s.res ∧ t.acc = s.acc ∧
    InputKept s t ∧ OutputKept s t ∧ TablesKept s t

/-! ### GFE -/

/-- GFINIT, whatever LOG and ALOG held: ALOG holds the powers of α, LOG the exponents, LOG[0] is 0, READY is 1, and nothing but
the tables, READY and STAT.ERR changes (R77, R78, R83). -/
def Obligations.GfinitResult : Prop :=
  ∀ s : State, admits s.cfg = true → ∃ t, exec .gfinit s = .next t ∧
    TablesBuilt s.cfg.gfPoly t.log t.alog ∧ t.stat.ready = true ∧ t.stat.err = 0 ∧ t.res = s.res ∧ t.acc = s.acc ∧
    InputKept s t ∧ OutputKept s t

/-- R79: the tables GFINIT builds for GF_POLY = 0x43. -/
def Obligations.DefaultTables : Prop :=
  ∀ s : State, s.cfg.gfPoly = 0x43 → ∃ t, exec .gfinit s = .next t ∧
    t.alog.toList =
      [1, 2, 4, 8, 16, 32, 3, 6, 12, 24, 48, 35, 5, 10, 20, 40] ++
      [19, 38, 15, 30, 60, 59, 53, 41, 17, 34, 7, 14, 28, 56, 51, 37] ++
      [9, 18, 36, 11, 22, 44, 27, 54, 47, 29, 58, 55, 45, 25, 50, 39] ++
      [13, 26, 52, 43, 21, 42, 23, 46, 31, 62, 63, 61, 57, 49, 33, 1] ∧
    t.log.toList =
      [0, 0, 1, 6, 2, 12, 7, 26, 3, 32, 13, 35, 8, 48, 27, 18] ++
      [4, 24, 33, 16, 14, 52, 36, 54, 9, 45, 49, 38, 28, 41, 19, 56] ++
      [5, 62, 25, 11, 34, 31, 17, 47, 15, 23, 53, 51, 37, 44, 55, 40] ++
      [10, 61, 46, 30, 50, 22, 39, 43, 29, 60, 42, 21, 20, 59, 57, 58]

/-- GFLOG a: 0 for a = 0, else the exponent below 63 of the power of α that a is; the tables are built on first use; nothing but
RES, STAT.ERR and the tables changes (R78, R80, R84). -/
def Obligations.GflogResult : Prop :=
  ∀ (a : Sym) (s : State), s.Inv → ∃ t, exec (.gflog a) s = .next t ∧
    (a = 0 → t.res = 0) ∧ (a ≠ 0 → t.res.toNat < 63 ∧ alphaPow s.cfg.gfPoly t.res.toNat = a) ∧
    t.stat.err = 0 ∧ t.acc = s.acc ∧ TablesEnsured s t ∧ InputKept s t ∧ OutputKept s t

/-- GFEXP a: α^a for every index 0 to 63, not reduced mod 63; the tables are built on first use; nothing but RES, STAT.ERR and the
tables changes (R78, R80, R85). -/
def Obligations.GfexpResult : Prop :=
  ∀ (a : Sym) (s : State), s.Inv → ∃ t, exec (.gfexp a) s = .next t ∧
    t.res = (alphaPow s.cfg.gfPoly a.toNat).setWidth 16 ∧
    t.stat.err = 0 ∧ t.acc = s.acc ∧ TablesEnsured s t ∧ InputKept s t ∧ OutputKept s t

/-- GFMUL a, b: the product of a and b as polynomials over GF(2) reduced modulo GF_POLY; the tables are built on first use;
nothing but RES, STAT.ERR and the tables changes (R80, R82, R86). -/
def Obligations.GfmulResult : Prop :=
  ∀ (a b : Sym) (s : State), s.Inv → ∃ t, exec (.gfmul a b) s = .next t ∧
    t.res = (fieldMul s.cfg.gfPoly a b).setWidth 16 ∧
    t.stat.err = 0 ∧ t.acc = s.acc ∧ TablesEnsured s t ∧ InputKept s t ∧ OutputKept s t

/-- R82: the laws of GfMul over the tables of a state with READY = 1. -/
def Obligations.GfMulLaws : Prop :=
  ∀ s : State, s.Inv → s.stat.ready = true → ∀ a b c : Sym,
    gfMul s.log s.alog a b = fieldMul s.cfg.gfPoly a b ∧
    gfMul s.log s.alog a b = gfMul s.log s.alog b a ∧
    gfMul s.log s.alog (gfMul s.log s.alog a b) c = gfMul s.log s.alog a (gfMul s.log s.alog b c) ∧
    gfMul s.log s.alog a (b ^^^ c) = gfMul s.log s.alog a b ^^^ gfMul s.log s.alog a c ∧
    gfMul s.log s.alog 1 a = a ∧ gfMul s.log s.alog 0 a = 0 ∧
    (gfMul s.log s.alog a b = 0 → a = 0 ∨ b = 0) ∧
    (a ≠ 0 → gfMul s.log s.alog a (tableGet s.alog (BitVec.ofNat 6 ((63 - (tableGet s.log a).toNat) % 63))) = 1)

/-! ### PLFSR -/

/-- PCLR completes in every state and clears ACC; the tables, RES and everything else but STAT.ERR stay (R93). -/
def Obligations.PclrResult : Prop :=
  ∀ s : State, ∃ t, exec .pclr s = .next t ∧ t.acc.toList = [0, 0, 0, 0] ∧ t.stat.err = 0 ∧ t.res = s.res ∧
    InputKept s t ∧ OutputKept s t ∧ TablesKept s t

/-- PFEED a: the LFSR step over the accumulator as it was, with field multiplication; RES stays (R80, R88, R94). -/
def Obligations.PfeedResult : Prop :=
  ∀ (a : Sym) (s : State), s.Inv → ∃ t, exec (.pfeed a) s = .next t ∧
    t.acc.toList =
      [fieldMul s.cfg.gfPoly (s.acc[3] ^^^ a) s.cfg.rsCoeff[0],
       s.acc[0] ^^^ fieldMul s.cfg.gfPoly (s.acc[3] ^^^ a) s.cfg.rsCoeff[1],
       s.acc[1] ^^^ fieldMul s.cfg.gfPoly (s.acc[3] ^^^ a) s.cfg.rsCoeff[2],
       s.acc[2] ^^^ fieldMul s.cfg.gfPoly (s.acc[3] ^^^ a) s.cfg.rsCoeff[3]] ∧
    t.stat.err = 0 ∧ t.res = s.res ∧ TablesEnsured s t ∧ InputKept s t ∧ OutputKept s t

/-- PREAD k completes in every state with ACC[3 - k], zero-extended, in RES, and leaves ACC and the tables (R90, R95). -/
def Obligations.PreadResult : Prop :=
  ∀ (k : BitVec 2) (s : State), ∃ t, exec (.pread k) s = .next t ∧
    t.res = (s.acc.toList.reverse.getD k.toNat 0).setWidth 16 ∧
    t.stat.err = 0 ∧ t.acc = s.acc ∧ InputKept s t ∧ OutputKept s t ∧ TablesKept s t

/-- A sequence followed by its own four check symbols, most significant first, leaves the accumulator at zero: four PFEEDs of what
the accumulator held (R90, R92). -/
def Obligations.OwnCheckSymbolsClear : Prop :=
  ∀ s : State, ∃ t₁ t₂ t₃ t₄, exec (.pfeed s.acc[3]) s = .next t₁ ∧ exec (.pfeed s.acc[2]) t₁ = .next t₂ ∧
    exec (.pfeed s.acc[1]) t₂ = .next t₃ ∧ exec (.pfeed s.acc[0]) t₃ = .next t₄ ∧ t₄.acc.toList = [0, 0, 0, 0]

/-- The parity of a sequence is a remainder (R92): S(x) · x^4 is a multiple q(x) · g(x) plus the polynomial of degree at most 3
whose coefficients are ACC, with the product taken in the field of GF_POLY. -/
def Obligations.ParityIsRemainder : Prop :=
  ∀ s : State, s.Inv → s.stat.ready = true → ∀ syms : List Sym, ∃ q : List Sym, q.length = syms.length ∧
    polyAdd (timesGenerator s.cfg.gfPoly s.cfg.rsCoeff [] q) (lfsrFeed s.mul s.cfg.rsCoeff accZero syms).toList =
      [0, 0, 0, 0] ++ syms.reverse

/-- The default RS_COEFF are the low coefficients of (x + α)(x + α^2)(x + α^3)(x + α^4) over the default field (R87). -/
def Obligations.DefaultGeneratorFactors : Prop :=
  [alphaPow 0x43 1, alphaPow 0x43 2, alphaPow 0x43 3, alphaPow 0x43 4].foldl
    (fun p r => polyAdd (0 :: p) (p.map (fieldMul 0x43 r))) [1] = defaultCfg.rsCoeff.toList ++ [1]

/-! ### FCODEC -/

/-- R97: CharIndex is the position in the alphabet of R96, none outside it; no two characters share a position; and its closed
form. -/
def Obligations.CharIndexIsAlphabetPosition : Prop :=
  (∀ (c : Byte) (i : Sym), charIndex c = some i ↔ alphabet[i.toNat]? = some c) ∧
  (∀ c : Byte, charIndex c = none ↔ c ∉ alphabet) ∧
  (∀ (c d : Byte) (i : Sym), charIndex c = some i → charIndex d = some i → c = d) ∧
  (∀ c : Byte, 0x30 ≤ c.toNat → c.toNat ≤ 0x39 → charIndex c = some (BitVec.ofNat 6 (c.toNat - 0x30))) ∧
  (∀ c : Byte, 0x41 ≤ c.toNat → c.toNat ≤ 0x5A → charIndex c = some (BitVec.ofNat 6 (c.toNat - 0x37))) ∧
  (∀ c : Byte, 0x61 ≤ c.toNat → c.toNat ≤ 0x7A → charIndex c = some (BitVec.ofNat 6 (c.toNat - 0x3D))) ∧
  charIndex 0x20 = some 62 ∧ charIndex 0x23 = some 63

/-- CLOOKUP c completes in every state: the alphabet position in RES and STAT.ERR 0, or STAT.ERR 6 with RES kept; the tables and
all else stay (R96, R110). -/
def Obligations.ClookupResult : Prop :=
  ∀ (c : Byte) (s : State), ∃ t, exec (.clookup c) s = .next t ∧
    (∀ i, i < 64 → alphabet[i]? = some c → t.res.toNat = i ∧ t.stat.err = 0) ∧
    (c ∉ alphabet → t.res = s.res ∧ t.stat.err = 6) ∧
    t.acc = s.acc ∧ InputKept s t ∧ OutputKept s t ∧ TablesKept s t

/-- NENC c completes in every state: for a decimal digit the two digits of its N_TABLE entry, the left one more significant, in RES;
for every other byte STAT.ERR 6 with RES kept (R44, R99, R111). -/
def Obligations.NencResult : Prop :=
  ∀ (c : Byte) (s : State), ∃ t, exec (.nenc c) s = .next t ∧
    (∀ p : Pair, DigitByte c → s.cfg.nTable[c.toNat - 0x30]? = some p →
      t.res.toNat = 4 * p.d0.toNat + p.d1.toNat ∧ t.stat.err = 0) ∧
    (¬ DigitByte c → t.res = s.res ∧ t.stat.err = 6) ∧
    t.acc = s.acc ∧ InputKept s t ∧ OutputKept s t ∧ TablesKept s t

/-- CENC c completes in every state: for an alphabet character the three digits of the C_TABLE entry at its position, leftmost most
significant, in RES; for every other byte STAT.ERR 6 with RES kept (R44, R100, R112). -/
def Obligations.CencResult : Prop :=
  ∀ (c : Byte) (s : State), ∃ t, exec (.cenc c) s = .next t ∧
    (∀ (i : Nat) (p : Triple), alphabet[i]? = some c → s.cfg.cTable[i]? = some p →
      t.res.toNat = 16 * p.d0.toNat + 4 * p.d1.toNat + p.d2.toNat ∧ t.stat.err = 0) ∧
    (c ∉ alphabet → t.res = s.res ∧ t.stat.err = 6) ∧
    t.acc = s.acc ∧ InputKept s t ∧ OutputKept s t ∧ TablesKept s t

/-- R101: every three-digit base-4 string is the entry of exactly one character of the default C_TABLE. -/
def Obligations.DefaultCTableIsPermutation : Prop :=
  ∀ d0 d1 d2 : Digit, ∃ i : Sym, tableGet defaultCfg.cTable i = ⟨d0, d1, d2⟩ ∧
    ∀ j : Sym, tableGet defaultCfg.cTable j = ⟨d0, d1, d2⟩ → j = i

/-! ### SASM and BMAP -/

/-- R113: Pack3 is (d0 << 4) | (d1 << 2) | d2, and a bijection from the digit triples onto the symbols. -/
def Obligations.Pack3IsBijection : Prop :=
  (∀ d0 d1 d2 : Digit, (pack3 ⟨d0, d1, d2⟩).toNat = 16 * d0.toNat + 4 * d1.toNat + d2.toNat) ∧
  (∀ p q : Triple, pack3 p = pack3 q → p = q) ∧ (∀ v : Sym, ∃ p : Triple, pack3 p = v)

/-- PACK d0, d1, d2 completes in every state with the packed symbol in RES; the tables and all else stay (R113, R120). -/
def Obligations.PackResult : Prop :=
  ∀ (d0 d1 d2 : Digit) (s : State), ∃ t, exec (.pack d0 d1 d2) s = .next t ∧
    t.res.toNat = 16 * d0.toNat + 4 * d1.toNat + d2.toNat ∧
    t.stat.err = 0 ∧ t.acc = s.acc ∧ InputKept s t ∧ OutputKept s t ∧ TablesKept s t

/-- BAREXP a completes in every state with the packed BAR_TABLE entry in RES, which is a itself under the default table; the tables
and all else stay (R116, R121). -/
def Obligations.BarexpResult : Prop :=
  ∀ (a : Sym) (s : State), ∃ t, exec (.barexp a) s = .next t ∧
    (∀ p : Triple, s.cfg.barTable[a.toNat]? = some p → t.res.toNat = 16 * p.d0.toNat + 4 * p.d1.toNat + p.d2.toNat) ∧
    (s.cfg.barTable = defaultCfg.barTable → t.res = a.setWidth 16) ∧
    t.stat.err = 0 ∧ t.acc = s.acc ∧ InputKept s t ∧ OutputKept s t ∧ TablesKept s t

/-- BARSHAPE k completes in every state with 0x0800, 0x0401, 0x0442 or 0x0233 in RES; the tables and all else stay (R124, R125,
R127). -/
def Obligations.BarshapeResult : Prop :=
  ∀ (k : Digit) (s : State), ∃ t, exec (.barshape k) s = .next t ∧
    (k = 0 → t.res = 0x0800) ∧ (k = 1 → t.res = 0x0401) ∧ (k = 2 → t.res = 0x0442) ∧ (k = 3 → t.res = 0x0233) ∧
    t.stat.err = 0 ∧ t.acc = s.acc ∧ InputKept s t ∧ OutputKept s t ∧ TablesKept s t

/-! ### ENCODE -/

/-- ENCODE with a well-formed input of a type whose body length is a multiple of 3 completes: OBUF[0..OLEN) is the framed string,
every OBUF entry from OLEN on is as before, ACC holds the parity remainder, BTYPE, VALID, READY and ERR are set, and RES and the
input stay (R104 to R109, R114 to R118, R122). -/
def Obligations.EncodeSucceeds : Prop :=
  ∀ (s : State) (ty : BarcodeType) (str : List Byte), s.Inv → InputIs s str → str.length ≤ s.cfg.ibufSize →
    InputFor s.cfg ty str → bodyLength (rowFor s.cfg.typeTable ty) % 3 = 0 →
    ∃ t, exec .encode s = .next t ∧
      OutputIs t (framedString s.cfg ty str) ∧
      t.olen.toNat = (framedString s.cfg ty str).length ∧
      (framedString s.cfg ty str).length = bodyLength (rowFor s.cfg.typeTable ty) + 16 ∧
      (∀ i, (framedString s.cfg ty str).length ≤ i → t.obuf.read? i = s.obuf.read? i) ∧
      t.acc = parityOf s.cfg (bodyString s.cfg ty str) ∧
      t.stat = { err := 0, btype := btypeBits ty, valid := true, ready := true } ∧
      t.res = s.res ∧ TablesEnsured s t ∧ InputKept s t

/-- ENCODE with ILEN above IBUF_SIZE ends in error 9 before any byte is read (R122, R132, R135). -/
def Obligations.EncodeBufRange : Prop :=
  ∀ s : State, s.cfg.ibufSize < s.ilen.toNat → ∃ t, exec .encode s = .next t ∧ EncodeFailed s t 9

/-- ENCODE whose input is present reports one error, the first that applies in the order of R138, with the writes of R135 and no
others (R104 to R107, R115, R134, R135, R138). -/
def Obligations.EncodeErrorPriority : Prop :=
  ∀ (s : State) (str : List Byte), admits s.cfg = true → InputIs s str → str.length ≤ s.cfg.ibufSize →
    ∃ t, exec .encode s = .next t ∧
      (str.length < 10 → EncodeFailed s t 1) ∧
      (10 ≤ str.length → ¬ (DigitByte (str.getD 0 0) ∧ DigitByte (str.getD 1 0)) → EncodeFailed s t 2) ∧
      (10 ≤ str.length → (∀ i, i < 2 → DigitByte (str.getD i 0)) →
        (∃ i, 2 ≤ i ∧ i < 10 ∧ ¬ DigitByte (str.getD i 0)) → EncodeFailed s t 3) ∧
      (10 ≤ str.length → (∀ i, i < 10 → DigitByte (str.getD i 0)) →
        (∀ ty, (rowFor s.cfg.typeTable ty).fcc ≠
          10 * ((str.getD 0 0).toNat - 0x30) + ((str.getD 1 0).toNat - 0x30)) → EncodeFailed s t 4) ∧
      (∀ ty, 10 ≤ str.length → (∀ i, i < 10 → DigitByte (str.getD i 0)) →
        (rowFor s.cfg.typeTable ty).fcc = 10 * ((str.getD 0 0).toNat - 0x30) + ((str.getD 1 0).toNat - 0x30) →
        ((∀ c ∈ str.drop 10, DigitByte c) ∧ 10 < str.length ∧ (rowFor s.cfg.typeTable ty).maxDigits < str.length - 10) ∨
          ((∃ c ∈ str.drop 10, ¬ DigitByte c) ∧ (rowFor s.cfg.typeTable ty).maxChars < str.length - 10) →
        EncodeFailed s t 5) ∧
      (∀ ty, 10 ≤ str.length → (∀ i, i < 10 → DigitByte (str.getD i 0)) →
        (rowFor s.cfg.typeTable ty).fcc = 10 * ((str.getD 0 0).toNat - 0x30) + ((str.getD 1 0).toNat - 0x30) →
        str.length - 10 ≤ (rowFor s.cfg.typeTable ty).maxChars → (∃ c ∈ str.drop 10, c ∉ alphabet) →
        EncodeFailed s t 6) ∧
      (∀ ty, InputFor s.cfg ty str → bodyLength (rowFor s.cfg.typeTable ty) % 3 ≠ 0 → EncodeFailed s t 7)

/-- ENCODE that must read an entry not written since reset stops with the fault of the first such entry, whatever check would have
failed later (R32, R54, R158). R32 asks a model for this fault; which entry it names is the model's choice: log entry 6. -/
def Obligations.EncodeUnwrittenFaults : Prop :=
  ∀ (s : State) (i : Nat), s.ilen.toNat ≤ s.cfg.ibufSize → i < s.ilen.toNat → s.ibuf.read? i = none →
    (∀ k, k < i → (s.ibuf.read? k).isSome = true) → exec .encode s = .fault (.unwrittenEntry .ibuf i)

/-- ENCODE completes exactly where ILEN is above IBUF_SIZE or every entry below ILEN has been written (R32, R54, R158). It
faults elsewhere, as R32 asks of a model: log entry 6. -/
def Obligations.EncodeCompletesExactly : Prop :=
  ∀ s : State, (∃ t, exec .encode s = .next t) ↔
    (s.cfg.ibufSize < s.ilen.toNat ∨ ∀ i, i < s.ilen.toNat → (s.ibuf.read? i).isSome = true)

/-- R136: after any ENCODE either VALID is 1, ERR is 0 and OBUF[0..OLEN) is the complete framed string of the current
IBUF[0..ILEN), or VALID is 0, ERR is not 0 and OLEN is 0. -/
def Obligations.EncodeAllOrNothing : Prop :=
  ∀ s t : State, s.Inv → exec .encode s = .next t →
    (t.stat.valid = true ∧ t.stat.err = 0 ∧
      ∃ ty str, InputIs t str ∧ InputFor t.cfg ty str ∧ OutputIs t (framedString t.cfg ty str) ∧
        t.olen.toNat = (framedString t.cfg ty str).length) ∨
    (t.stat.valid = false ∧ t.stat.err ≠ 0 ∧ t.olen = 0)

/-- After a successful ENCODE, PREAD k returns the check symbol whose BAR_TABLE digits stand in the barcode at position k of its
parity digits (R90, R117, R118, R123). -/
def Obligations.EncodeParityReadable : Prop :=
  ∀ s t : State, s.Inv → exec .encode s = .next t → t.stat.valid = true → ∀ k : BitVec 2,
    ∃ u p, exec (.pread k) t = .next u ∧ t.cfg.barTable[u.res.toNat]? = some p ∧
      t.obuf.read? (t.olen.toNat - 14 + 3 * k.toNat) = some (p.d0.setWidth 8) ∧
      t.obuf.read? (t.olen.toNat - 14 + 3 * k.toNat + 1) = some (p.d1.setWidth 8) ∧
      t.obuf.read? (t.olen.toNat - 14 + 3 * k.toNat + 2) = some (p.d2.setWidth 8)

/-- With the default TYPE_TABLE a successful ENCODE leaves OLEN 37, 52 or 67, by the type (R109, R119). -/
def Obligations.DefaultFramedLengths : Prop :=
  ∀ s t : State, s.Inv → s.cfg.typeTable = defaultCfg.typeTable → exec .encode s = .next t → t.stat.valid = true →
    (t.stat.btype = 1 ∧ t.olen = 37) ∨ (t.stat.btype = 2 ∧ t.olen = 52) ∨ (t.stat.btype = 3 ∧ t.olen = 67)

/-- ENCODE depends on the configuration, ILEN and IBUF[0..ILEN) only: not on ACC, RES, the old output, stale IBUF bytes at or above
ILEN, or whether the tables were built (R91, R157, R158). -/
def Obligations.EncodeIgnoresOldState : Prop :=
  ∀ s s' t : State, s.Inv → s'.Inv → s'.cfg = s.cfg → s'.ilen = s.ilen →
    (∀ i, i < s.ilen.toNat → s'.ibuf.read? i = s.ibuf.read? i) → exec .encode s = .next t →
    ∃ t', exec .encode s' = .next t' ∧ t'.stat = t.stat ∧ t'.olen = t.olen ∧
      (∀ i, i < t.olen.toNat → t'.obuf.read? i = t.obuf.read? i) ∧ (t.stat.valid = true → t'.acc = t.acc)

/-! ### Whole-machine rules -/

/-- Every command but ENCODE completes in every state (R41, R131). -/
def Obligations.OtherCommandsComplete : Prop :=
  ∀ (i : Instr) (s : State), i ≠ .encode → ∃ t, exec i s = .next t

/-- No command writes the configuration, ILEN or an IBUF entry (R14, R24, R30, R152). -/
def Obligations.CommandsKeepInput : Prop :=
  ∀ (i : Instr) (s t : State), exec i s = .next t → InputKept s t

/-- No command but ENCODE writes OLEN, an OBUF entry, BTYPE or VALID (R20, R21, R25, R31). -/
def Obligations.OnlyEncodeWritesOutput : Prop :=
  ∀ (i : Instr) (s t : State), i ≠ .encode → exec i s = .next t → OutputKept s t

/-- ACC is written by PCLR, PFEED and a successful ENCODE only (R27, R122). -/
def Obligations.AccWriters : Prop :=
  ∀ (i : Instr) (s t : State), exec i s = .next t → i ≠ .pclr → (∀ a, i ≠ .pfeed a) →
    (i = .encode → t.stat.err ≠ 0) → t.acc = s.acc

/-- RES stays under NOP, GFINIT, PCLR, PFEED, ENCODE and every failing command (R17, R155). -/
def Obligations.ResKept : Prop :=
  ∀ (i : Instr) (s t : State), exec i s = .next t →
    (i = .nop ∨ i = .gfinit ∨ i = .pclr ∨ (∃ a, i = .pfeed a) ∨ i = .encode ∨ t.stat.err ≠ 0) → t.res = s.res

/-- GFINIT, GFLOG, GFEXP, GFMUL, PFEED and ENCODE leave the tables built; every other command leaves LOG, ALOG and READY as they
were (R22, R28, R29, R80). -/
def Obligations.TableWriters : Prop :=
  ∀ (i : Instr) (s t : State), s.Inv → exec i s = .next t →
    (i = .gfinit ∨ (∃ a, i = .gflog a) ∨ (∃ a, i = .gfexp a) ∨ (∃ a b, i = .gfmul a b) ∨ (∃ a, i = .pfeed a) ∨
      i = .encode → TablesEnsured s t) ∧
    (i ≠ .gfinit ∧ (∀ a, i ≠ .gflog a) ∧ (∀ a, i ≠ .gfexp a) ∧ (∀ a b, i ≠ .gfmul a b) ∧ (∀ a, i ≠ .pfeed a) ∧
      i ≠ .encode → TablesKept s t)

/-- Which codes a command can leave in STAT.ERR: ILLEGAL leaves 8; CLOOKUP, NENC and CENC leave 0 or 6; ENCODE leaves 0 to 7 or 9;
every other command leaves 0. So none leaves 10 to 15 (R19, R132, R138). -/
def Obligations.ErrorCodesByCommand : Prop :=
  ∀ (i : Instr) (s t : State), exec i s = .next t →
    ((∃ w, i = .illegal w) ∧ t.stat.err = 8) ∨
    (((∃ c, i = .clookup c) ∨ (∃ c, i = .nenc c) ∨ (∃ c, i = .cenc c)) ∧ (t.stat.err = 0 ∨ t.stat.err = 6)) ∨
    (i = .encode ∧ t.stat.err.toNat ≤ 9 ∧ t.stat.err ≠ 8) ∨
    ((∀ w, i ≠ .illegal w) ∧ (∀ c, i ≠ .clookup c) ∧ (∀ c, i ≠ .nenc c) ∧ (∀ c, i ≠ .cenc c) ∧ i ≠ .encode ∧
      t.stat.err = 0)

/-- R135, R137: a failing command leaves every piece of state as it was, but STAT.ERR, the first-use build of the tables by
ENCODE, and ENCODE's OLEN, VALID and BTYPE, which are cleared. -/
def Obligations.FailuresArePrecise : Prop :=
  ∀ (i : Instr) (s t : State), exec i s = .next t → t.stat.err ≠ 0 →
    t.res = s.res ∧ t.acc = s.acc ∧ InputKept s t ∧ (∀ j, t.obuf.read? j = s.obuf.read? j) ∧
    (i ≠ .encode → OutputKept s t ∧ TablesKept s t) ∧ (s.stat.ready = true → TablesKept s t) ∧
    (i = .encode → t.olen = 0 ∧ t.stat.valid = false ∧ t.stat.btype = 0 ∧ (s.Inv → TablesEnsured s t))

/-- Building the tables first changes no result: after GFINIT a command leaves the same RES, ERR, BTYPE, VALID, OLEN, ACC and OBUF
as without it (R80, R83, R153). -/
def Obligations.FirstUseIsInvisible : Prop :=
  ∀ (i : Instr) (s t : State), s.Inv → exec i s = .next t →
    ∃ u t', exec .gfinit s = .next u ∧ exec i u = .next t' ∧ t'.res = t.res ∧ t'.stat.err = t.stat.err ∧
      t'.stat.btype = t.stat.btype ∧ t'.stat.valid = t.stat.valid ∧ t'.olen = t.olen ∧ t'.acc = t.acc ∧
      (∀ j, t'.obuf.read? j = t.obuf.read? j) ∧ InputKept t t'

/-! ### The host bus and the step -/

/-- A step runs the decoded command: a write of w to CMD that is next takes effect as the command w decodes to, over the state with
that write taken away; `withFetchWord` puts exactly such a write there (R41, R55, R68). That the waiting host operations stand in the
state is the model's choice: log entry 3. -/
def Obligations.StepRunsDecodedCommand : Prop :=
  (∀ (s : State) (w : Word) (rest : List HostOp), admits s.cfg = true → s.pending = .write 0x00 w :: rest →
    step s = exec (decode w) { s with pending := rest }) ∧
  (∀ (s : State) (w : Nat), admits s.cfg = true → w < 65536 →
    step (s.withFetchWord 16 w) = exec (decode (BitVec.ofNat 16 w)) s)

/-- With no host operation waiting the core holds its state (R147). That such a step is a step at all is the model's choice: log
entry 9. -/
def Obligations.IdleStepHoldsState : Prop :=
  ∀ s : State, admits s.cfg = true → s.pending = [] → step s = .next s

/-- A configuration that fails R8 is refused by the step and given no meaning: the model's choice, log entry 2 (R8; U9). -/
def Obligations.IllFormedConfigRefused : Prop :=
  ∀ s : State, admits s.cfg = false → step s = .refused .illFormedConfig

/-- RST between two host operations: RES, STAT, ILEN, OLEN and ACC are 0, no buffer entry holds a value, the configuration stays and
the operations the host still waits with are held (R148, R149, R150, R152). That RST falls between two host operations is the
model's choice: log entry 8. -/
def Obligations.ResetValues : Prop :=
  ∀ (s : State) (rest : List HostOp), admits s.cfg = true → s.pending = .reset :: rest →
    ∃ t, step s = .next t ∧ t.res = 0 ∧ t.stat = { err := 0, btype := 0, valid := false, ready := false } ∧
      t.ilen = 0 ∧ t.olen = 0 ∧ t.acc.toList = [0, 0, 0, 0] ∧ (∀ i, t.ibuf.read? i = none) ∧
      (∀ i, t.obuf.read? i = none) ∧ t.cfg = s.cfg ∧ t.pending = rest ∧ t.reads = s.reads

/-- What a host read gives at every address, with no side effect on the core; a read of a buffer entry not written since reset
faults (R17, R18, R24 to R26, R32, R36 to R39, R47). The host's record of what it read and the map's independence of the
buffer sizes are the model's choices: log entries 4 and 7. -/
def Obligations.HostReadReturns : Prop :=
  ∀ (s : State) (a : Addr) (rest : List HostOp), s.Inv → s.pending = .read a :: rest →
    (a.toNat = 0x00 → step s = .next { s with pending := rest, reads := 0 :: s.reads }) ∧
    (a.toNat = 0x01 → step s = .next { s with pending := rest, reads := s.res :: s.reads }) ∧
    (a.toNat = 0x02 → step s = .next { s with
      pending := rest
      reads := BitVec.ofNat 16 (128 * s.stat.ready.toNat + 64 * s.stat.valid.toNat + 16 * s.stat.btype.toNat +
        s.stat.err.toNat) :: s.reads }) ∧
    (a.toNat = 0x03 → step s = .next { s with pending := rest, reads := BitVec.ofNat 16 s.ilen.toNat :: s.reads }) ∧
    (a.toNat = 0x04 → step s = .next { s with pending := rest, reads := BitVec.ofNat 16 s.olen.toNat :: s.reads }) ∧
    (0x05 ≤ a.toNat → a.toNat ≤ 0x3F → step s = .next { s with pending := rest, reads := 0 :: s.reads }) ∧
    (∀ i b, i < 64 → a.toNat = 0x40 + i → s.ibuf.read? i = some b →
      step s = .next { s with pending := rest, reads := BitVec.ofNat 16 b.toNat :: s.reads }) ∧
    (∀ i, i < 64 → a.toNat = 0x40 + i → s.ibuf.read? i = none → step s = .fault (.unwrittenEntry .ibuf i)) ∧
    (∀ i b, i < 67 → a.toNat = 0x80 + i → s.obuf.read? i = some b →
      step s = .next { s with pending := rest, reads := BitVec.ofNat 16 b.toNat :: s.reads }) ∧
    (∀ i, i < 67 → a.toNat = 0x80 + i → s.obuf.read? i = none → step s = .fault (.unwrittenEntry .obuf i)) ∧
    (0xC3 ≤ a.toNat → step s = .next { s with pending := rest, reads := 0 :: s.reads })

/-- What a host write does at every address but CMD: ILEN keeps the low seven bits, an IBUF entry the low eight with every other
entry as before, and every other address ignores the write (R24, R37 to R40, R47). The map's independence of the buffer sizes
is the model's choice: log entry 7. -/
def Obligations.HostWriteStores : Prop :=
  ∀ (s : State) (a : Addr) (v : Word) (rest : List HostOp), s.Inv → s.pending = .write a v :: rest →
    (a.toNat = 0x03 → step s = .next { s with pending := rest, ilen := BitVec.ofNat 7 (v.toNat % 128) }) ∧
    (∀ i, i < 64 → a.toNat = 0x40 + i → ∃ t, step s = .next t ∧ t = { s with pending := rest, ibuf := t.ibuf } ∧
      t.ibuf.read? i = some (BitVec.ofNat 8 (v.toNat % 256)) ∧ ∀ j, j ≠ i → t.ibuf.read? j = s.ibuf.read? j) ∧
    ((a.toNat = 0x01 ∨ a.toNat = 0x02 ∨ a.toNat = 0x04) ∨ (0x05 ≤ a.toNat ∧ a.toNat ≤ 0x3F) ∨ 0x80 ≤ a.toNat →
      step s = .next { s with pending := rest })

/-- A byte written to an IBUF address is what the next read of that address returns (R38, R48). The record of reads is the model's
choice: log entry 4. -/
def Obligations.IbufReadsBack : Prop :=
  ∀ (s : State) (a : Addr) (v : Word) (rest : List HostOp), s.Inv → 0x40 ≤ a.toNat → a.toNat ≤ 0x7F →
    s.pending = .write a v :: .read a :: rest →
    ∃ t u, step s = .next t ∧ step t = .next u ∧ u.reads = BitVec.ofNat 16 (v.toNat % 256) :: s.reads ∧ u.pending = rest

/-- No step changes the configuration (R14, R152). -/
def Obligations.StepKeepsConfig : Prop :=
  ∀ s t : State, step s = .next t → t.cfg = s.cfg

/-- The pseudo-instructions but LOADSTR expand as R71, R72 and R74 say. -/
def Obligations.PseudoInstructionsExpand : Prop :=
  (∀ i : Instr, expandLine (.command i) = some [.write 0x00 (encode i)]) ∧
  (∀ w : Word, expandLine (.cmdw w) = some [.write 0x00 w]) ∧
  (∀ syms : List Sym, expandLine (.parity syms) =
    some (.write 0x00 0x5000 :: syms.map (fun a => .write 0x00 (0x6000 ||| a.setWidth 16))))

/-- LOADSTR of a string of n ≤ 64 bytes, the host's next operations, puts it into IBUF[0..n) and n into ILEN, and changes no IBUF
entry from n on and nothing else (R73). -/
def Obligations.LoadstrFillsInput : Prop :=
  ∀ (s : State) (bytes : List Byte) (rest : List HostOp), s.Inv → bytes.length ≤ 64 →
    ∃ ops, expandLine (.loadstr bytes) = some ops ∧
      ∃ t : State, Host.Core.run core ops.length { s with pending := ops ++ rest } = .next t ∧
        InputIs t bytes ∧ (∀ i, bytes.length ≤ i → t.ibuf.read? i = s.ibuf.read? i) ∧
        t = { s with pending := rest, ilen := t.ilen, ibuf := t.ibuf }

/-! ### The invariant -/

/-- The state after reset has the invariant (R8, R149). -/
def Obligations.ResetHasInvariant : Prop := State.reset.Inv

/-- Every step keeps the invariant, from every state that has it (R8, R19 to R22, R31, R78, R118, R119). That the host can write no
IBUF entry above 63 is the model's choice: log entry 7. -/
def Obligations.StepKeepsInvariant : Prop :=
  ∀ s t : State, s.Inv → step s = .next t → t.Inv
end

