-- ==== Sys2Proof/Laws/Codec.lean ====
section
/-! SUPPORT. What each part of the field codec can answer (spec/42_field_codec.md R103 to R109), the parts of an admitted
configuration (R8), and the lengths of what is encoded. -/

namespace Sys2Proof.Machine

/-! ### Admitted configurations -/

theorem rowAdmitted_iff (n : Nat) (r : TypeRow) :
    rowAdmitted n r = true ↔
      r.fcc ≤ 99 ∧ 2 * r.maxDigits ≤ r.custBars ∧ 3 * r.maxChars ≤ r.custBars ∧ bodyLength r + 16 ≤ n := by
  simp [rowAdmitted, bodyLength, and_assoc]

/-- Every row of an admitted configuration passes R8 (f). -/
theorem admits_row {c : Cfg} (h : admits c = true) (ty : BarcodeType) :
    rowAdmitted c.obufSize (rowFor c.typeTable ty) = true := by
  simp only [admits, Bool.and_eq_true] at h
  cases ty <;> simp [rowFor, h]

/-- The buffer sizes of an admitted configuration (R8 (g)). -/
theorem admits_sizes {c : Cfg} (h : admits c = true) :
    10 ≤ c.ibufSize ∧ c.ibufSize ≤ 127 ∧ 1 ≤ c.obufSize ∧ c.obufSize ≤ 127 := by
  simp only [admits, Bool.and_eq_true, decide_eq_true_eq] at h
  exact ⟨h.1.1.1.2, h.1.1.2, h.1.2, h.2⟩

/-- The polynomial of an admitted configuration is one of the six (R8 (a)). -/
theorem admits_poly {c : Cfg} (h : admits c = true) : c.gfPoly ∈ primitivePolys := by
  simp only [admits, Bool.and_eq_true] at h
  simpa using h.1.1.1.1.1.1.1.1.1.1

/-- The FCC values of an admitted configuration are distinct (R8 (f)). -/
theorem admits_fcc_distinct {c : Cfg} (h : admits c = true) :
    c.typeTable.standard.fcc ≠ c.typeTable.type59.fcc ∧ c.typeTable.standard.fcc ≠ c.typeTable.type62.fcc ∧
      c.typeTable.type59.fcc ≠ c.typeTable.type62.fcc := by
  simp only [admits, Bool.and_eq_true] at h
  have := h.1.1.1.1.1.1.1.2
  simp only [allDistinct, List.contains_cons, List.contains_nil, Bool.or_false, Bool.and_true, Bool.and_eq_true,
    Bool.not_eq_true', Bool.or_eq_false_iff, beq_eq_false_iff_ne, ne_eq, Bool.not_false] at this
  exact ⟨this.1.1, this.1.2, this.2⟩

/-! ### Characters -/

theorem isDigit_iff (c : Byte) : isDigit c = true ↔ DigitByte c := by
  simp [isDigit, DigitByte]

/-- An FCC value selects a type only by the type's own row (R104). -/
theorem typeOfFcc_fcc {tt : TypeTable} {fcc : Nat} {ty : BarcodeType} (h : typeOfFcc tt fcc = some ty) :
    fcc = (rowFor tt ty).fcc := by
  unfold typeOfFcc at h
  split at h
  · cases h
    assumption
  · split at h
    · cases h
      assumption
    · split at h
      · cases h
        assumption
      · cases h

/-! ### Validation and the codec -/

/-- What the checks of R104 answer, check by check. -/
theorem validateFixed_tooShort {cfg : Cfg} {s : List Byte} (h : s.length < 10) :
    validateFixed cfg s = .error .valTooShort := by
  unfold validateFixed
  rw [if_pos h]

theorem validateFixed_badFcc {cfg : Cfg} {s : List Byte} (h : 10 ≤ s.length) (h2 : (s.take 2).all isDigit = false) :
    validateFixed cfg s = .error .valBadFcc := by
  unfold validateFixed
  rw [if_neg (Nat.not_lt.2 h), h2]
  rfl

theorem validateFixed_badDpid {cfg : Cfg} {s : List Byte} (h : 10 ≤ s.length) (h2 : (s.take 2).all isDigit = true)
    (h3 : (dpidOf s).all isDigit = false) : validateFixed cfg s = .error .valBadDpid := by
  unfold validateFixed
  rw [if_neg (Nat.not_lt.2 h), h2, h3]
  rfl

theorem validateFixed_unknown {cfg : Cfg} {s : List Byte} (h : 10 ≤ s.length) (h2 : (s.take 2).all isDigit = true)
    (h3 : (dpidOf s).all isDigit = true)
    (h4 : typeOfFcc cfg.typeTable (fccValue (s.getD 0 0) (s.getD 1 0)) = none) :
    validateFixed cfg s = .error .valUnknownType := by
  unfold validateFixed
  rw [if_neg (Nat.not_lt.2 h), h2, h3, h4]
  rfl

theorem validateFixed_known {cfg : Cfg} {s : List Byte} {ty : BarcodeType} (h : 10 ≤ s.length)
    (h2 : (s.take 2).all isDigit = true) (h3 : (dpidOf s).all isDigit = true)
    (h4 : typeOfFcc cfg.typeTable (fccValue (s.getD 0 0) (s.getD 1 0)) = some ty) : validateFixed cfg s = .ok ty := by
  unfold validateFixed
  rw [if_neg (Nat.not_lt.2 h), h2, h3, h4]
  rfl

/-- Everything `validateFixed` can answer: the first check of R104 that fails, or the type. -/
theorem validateFixed_cases (cfg : Cfg) (s : List Byte) :
    (s.length < 10 ∧ validateFixed cfg s = .error .valTooShort) ∨
    (10 ≤ s.length ∧ (s.take 2).all isDigit = false ∧ validateFixed cfg s = .error .valBadFcc) ∨
    (10 ≤ s.length ∧ (s.take 2).all isDigit = true ∧ (dpidOf s).all isDigit = false ∧
      validateFixed cfg s = .error .valBadDpid) ∨
    (10 ≤ s.length ∧ (s.take 2).all isDigit = true ∧ (dpidOf s).all isDigit = true ∧
      typeOfFcc cfg.typeTable (fccValue (s.getD 0 0) (s.getD 1 0)) = none ∧
      validateFixed cfg s = .error .valUnknownType) ∨
    (10 ≤ s.length ∧ (s.take 2).all isDigit = true ∧ (dpidOf s).all isDigit = true ∧
      ∃ ty, typeOfFcc cfg.typeTable (fccValue (s.getD 0 0) (s.getD 1 0)) = some ty ∧ validateFixed cfg s = .ok ty) := by
  by_cases h1 : s.length < 10
  · exact .inl ⟨h1, validateFixed_tooShort h1⟩
  · have h : 10 ≤ s.length := by omega
    cases h2 : (s.take 2).all isDigit
    · exact .inr (.inl ⟨h, rfl, validateFixed_badFcc h h2⟩)
    · cases h3 : (dpidOf s).all isDigit
      · exact .inr (.inr (.inl ⟨h, rfl, rfl, validateFixed_badDpid h h2 h3⟩))
      · cases h4 : typeOfFcc cfg.typeTable (fccValue (s.getD 0 0) (s.getD 1 0)) with
        | none => exact .inr (.inr (.inr (.inl ⟨h, rfl, rfl, rfl, validateFixed_unknown h h2 h3 h4⟩)))
        | some ty => exact .inr (.inr (.inr (.inr ⟨h, rfl, rfl, ty, rfl, validateFixed_known h h2 h3 h4⟩)))

/-- Everything the codec can answer (R109): the error of a fixed field, of the length check (R106) or of a lookup (R107), or the
type and the body. -/
theorem codec_cases (cfg : Cfg) (s : List Byte) :
    (∃ e, validateFixed cfg s = .error e ∧ codec cfg s = .error e) ∨
    (∃ ty, validateFixed cfg s = .ok ty ∧
      ((lengthOk (rowFor cfg.typeTable ty) (customerOf s) = false ∧ codec cfg s = .error .valLengthExceeded) ∨
       (lengthOk (rowFor cfg.typeTable ty) (customerOf s) = true ∧
         ((encodeCustomer cfg (customerOf s) = none ∧ codec cfg s = .error .encNotInAlphabet) ∨
          (∃ ciE, encodeCustomer cfg (customerOf s) = some ciE ∧
            codec cfg s = .ok (ty, bodyOf cfg (rowFor cfg.typeTable ty) s ciE)))))) := by
  unfold codec
  cases h1 : validateFixed cfg s with
  | error e => exact .inl ⟨e, rfl, rfl⟩
  | ok ty =>
    refine .inr ⟨ty, rfl, ?_⟩
    dsimp only
    cases h2 : lengthOk (rowFor cfg.typeTable ty) (customerOf s) with
    | false => exact .inl ⟨rfl, rfl⟩
    | true =>
      refine .inr ⟨rfl, ?_⟩
      cases h3 : encodeCustomer cfg (customerOf s) with
      | none => exact .inl ⟨rfl, rfl⟩
      | some ciE => exact .inr ⟨ciE, rfl, rfl⟩

/-- Everything a passing codec says (R109). -/
theorem codec_ok {cfg : Cfg} {s : List Byte} {ty : BarcodeType} {body : List Digit} (h : codec cfg s = .ok (ty, body)) :
    validateFixed cfg s = .ok ty ∧ lengthOk (rowFor cfg.typeTable ty) (customerOf s) = true ∧
      ∃ ciE, encodeCustomer cfg (customerOf s) = some ciE ∧ body = bodyOf cfg (rowFor cfg.typeTable ty) s ciE := by
  rcases codec_cases cfg s with ⟨e, -, h'⟩ | ⟨ty', hv, ⟨-, h'⟩ | ⟨hl, ⟨-, h'⟩ | ⟨ciE, he, h'⟩⟩⟩ <;> rw [h'] at h
  · cases h
  · cases h
  · cases h
  · cases h
    exact ⟨hv, hl, ciE, he, rfl⟩

/-! ### Lengths -/

theorem encodeNumeric_length (cfg : Cfg) (cs : List Byte) : (encodeNumeric cfg cs).length = 2 * cs.length := by
  induction cs with
  | nil => rfl
  | cons c cs ih =>
    simp only [encodeNumeric, pairDigits, List.flatMap_cons, List.length_append, List.length_cons, List.length_nil] at ih ⊢
    omega

theorem encodeAlpha_length {cfg : Cfg} {cs : List Byte} {ds : List Digit} (h : encodeAlpha cfg cs = some ds) :
    ds.length = 3 * cs.length := by
  induction cs generalizing ds with
  | nil =>
    cases h
    rfl
  | cons c cs ih =>
    rw [encodeAlpha] at h
    split at h
    · cases h
    · split at h
      · cases h
      · next rest hrest =>
        cases h
        simp only [tripleDigits, List.length_append, List.length_cons, List.length_nil, ih hrest]
        omega

/-- What the length check lets through fits into the customer field (R106, R108). -/
theorem encodeCustomer_fits {cfg : Cfg} (h : admits cfg = true) {ty : BarcodeType} {ci : List Byte} {ciE : List Digit}
    (hl : lengthOk (rowFor cfg.typeTable ty) ci = true) (he : encodeCustomer cfg ci = some ciE) :
    ciE.length ≤ (rowFor cfg.typeTable ty).custBars := by
  obtain ⟨-, hd, hc, -⟩ := (rowAdmitted_iff _ _).1 (admits_row h ty)
  unfold encodeCustomer at he
  unfold lengthOk at hl
  cases hn : isNumeric ci <;> simp only [hn, Bool.false_eq_true, if_false, if_true, decide_eq_true_eq] at he hl
  · rw [encodeAlpha_length he]
    omega
  · cases he
    rw [encodeNumeric_length]
    omega

theorem padCustomer_length {row : TypeRow} {ciE : List Digit} (h : ciE.length ≤ row.custBars) :
    (padCustomer row ciE).length = row.custBars := by
  simp only [padCustomer, List.length_append, List.length_replicate]
  omega

theorem parityDigits_length (cfg : Cfg) (acc : Vector Sym 4) : (parityDigits cfg acc).length = 12 := rfl

theorem framed_length (body par : List Digit) : (framed body par).length = body.length + par.length + 4 := by
  simp only [framed, sentinel, List.length_append, List.length_cons, List.length_nil]
  omega

end Sys2Proof.Machine
end

