-- ==== Sys2Proof/Laws/State.lean ====
section
/-! SUPPORT. One lemma per field of the state and per update: what the update makes of the field. Proofs cite these by `simp`
and never unfold a record update. -/

namespace Sys2Proof.Machine

/-! ### `setErr`: STAT.ERR written. -/

@[simp] theorem State.setErr_cfg (s : State) (e : ErrCode) : (s.setErr e).cfg = s.cfg := rfl
@[simp] theorem State.setErr_res (s : State) (e : ErrCode) : (s.setErr e).res = s.res := rfl
@[simp] theorem State.setErr_stat (s : State) (e : ErrCode) : (s.setErr e).stat = { s.stat with err := errBits e } := rfl
@[simp] theorem State.setErr_ilen (s : State) (e : ErrCode) : (s.setErr e).ilen = s.ilen := rfl
@[simp] theorem State.setErr_olen (s : State) (e : ErrCode) : (s.setErr e).olen = s.olen := rfl
@[simp] theorem State.setErr_acc (s : State) (e : ErrCode) : (s.setErr e).acc = s.acc := rfl
@[simp] theorem State.setErr_log (s : State) (e : ErrCode) : (s.setErr e).log = s.log := rfl
@[simp] theorem State.setErr_alog (s : State) (e : ErrCode) : (s.setErr e).alog = s.alog := rfl
@[simp] theorem State.setErr_ibuf (s : State) (e : ErrCode) : (s.setErr e).ibuf = s.ibuf := rfl
@[simp] theorem State.setErr_obuf (s : State) (e : ErrCode) : (s.setErr e).obuf = s.obuf := rfl
@[simp] theorem State.setErr_pending (s : State) (e : ErrCode) : (s.setErr e).pending = s.pending := rfl
@[simp] theorem State.setErr_reads (s : State) (e : ErrCode) : (s.setErr e).reads = s.reads := rfl

/-! ### `setRes`: RES written. -/

@[simp] theorem State.setRes_cfg (s : State) (w : Word) : (s.setRes w).cfg = s.cfg := rfl
@[simp] theorem State.setRes_res (s : State) (w : Word) : (s.setRes w).res = w := rfl
@[simp] theorem State.setRes_stat (s : State) (w : Word) : (s.setRes w).stat = s.stat := rfl
@[simp] theorem State.setRes_ilen (s : State) (w : Word) : (s.setRes w).ilen = s.ilen := rfl
@[simp] theorem State.setRes_olen (s : State) (w : Word) : (s.setRes w).olen = s.olen := rfl
@[simp] theorem State.setRes_acc (s : State) (w : Word) : (s.setRes w).acc = s.acc := rfl
@[simp] theorem State.setRes_log (s : State) (w : Word) : (s.setRes w).log = s.log := rfl
@[simp] theorem State.setRes_alog (s : State) (w : Word) : (s.setRes w).alog = s.alog := rfl
@[simp] theorem State.setRes_ibuf (s : State) (w : Word) : (s.setRes w).ibuf = s.ibuf := rfl
@[simp] theorem State.setRes_obuf (s : State) (w : Word) : (s.setRes w).obuf = s.obuf := rfl
@[simp] theorem State.setRes_pending (s : State) (w : Word) : (s.setRes w).pending = s.pending := rfl
@[simp] theorem State.setRes_reads (s : State) (w : Word) : (s.setRes w).reads = s.reads := rfl

/-! ### `setAcc`: ACC written. -/

@[simp] theorem State.setAcc_cfg (s : State) (a : Vector Sym 4) : (s.setAcc a).cfg = s.cfg := rfl
@[simp] theorem State.setAcc_res (s : State) (a : Vector Sym 4) : (s.setAcc a).res = s.res := rfl
@[simp] theorem State.setAcc_stat (s : State) (a : Vector Sym 4) : (s.setAcc a).stat = s.stat := rfl
@[simp] theorem State.setAcc_ilen (s : State) (a : Vector Sym 4) : (s.setAcc a).ilen = s.ilen := rfl
@[simp] theorem State.setAcc_olen (s : State) (a : Vector Sym 4) : (s.setAcc a).olen = s.olen := rfl
@[simp] theorem State.setAcc_acc (s : State) (a : Vector Sym 4) : (s.setAcc a).acc = a := rfl
@[simp] theorem State.setAcc_log (s : State) (a : Vector Sym 4) : (s.setAcc a).log = s.log := rfl
@[simp] theorem State.setAcc_alog (s : State) (a : Vector Sym 4) : (s.setAcc a).alog = s.alog := rfl
@[simp] theorem State.setAcc_ibuf (s : State) (a : Vector Sym 4) : (s.setAcc a).ibuf = s.ibuf := rfl
@[simp] theorem State.setAcc_obuf (s : State) (a : Vector Sym 4) : (s.setAcc a).obuf = s.obuf := rfl
@[simp] theorem State.setAcc_pending (s : State) (a : Vector Sym 4) : (s.setAcc a).pending = s.pending := rfl
@[simp] theorem State.setAcc_reads (s : State) (a : Vector Sym 4) : (s.setAcc a).reads = s.reads := rfl

/-! ### `setTables`: LOG, ALOG and READY written. -/

@[simp] theorem State.setTables_cfg (s : State) (l al : Vector Sym 64) : (s.setTables l al).cfg = s.cfg := rfl
@[simp] theorem State.setTables_res (s : State) (l al : Vector Sym 64) : (s.setTables l al).res = s.res := rfl
@[simp] theorem State.setTables_stat (s : State) (l al : Vector Sym 64) : (s.setTables l al).stat = { s.stat with ready := true } := rfl
@[simp] theorem State.setTables_ilen (s : State) (l al : Vector Sym 64) : (s.setTables l al).ilen = s.ilen := rfl
@[simp] theorem State.setTables_olen (s : State) (l al : Vector Sym 64) : (s.setTables l al).olen = s.olen := rfl
@[simp] theorem State.setTables_acc (s : State) (l al : Vector Sym 64) : (s.setTables l al).acc = s.acc := rfl
@[simp] theorem State.setTables_log (s : State) (l al : Vector Sym 64) : (s.setTables l al).log = l := rfl
@[simp] theorem State.setTables_alog (s : State) (l al : Vector Sym 64) : (s.setTables l al).alog = al := rfl
@[simp] theorem State.setTables_ibuf (s : State) (l al : Vector Sym 64) : (s.setTables l al).ibuf = s.ibuf := rfl
@[simp] theorem State.setTables_obuf (s : State) (l al : Vector Sym 64) : (s.setTables l al).obuf = s.obuf := rfl
@[simp] theorem State.setTables_pending (s : State) (l al : Vector Sym 64) : (s.setTables l al).pending = s.pending := rfl
@[simp] theorem State.setTables_reads (s : State) (l al : Vector Sym 64) : (s.setTables l al).reads = s.reads := rfl

/-! ### `setIlen`: ILEN written. -/

@[simp] theorem State.setIlen_cfg (s : State) (v : Word) : (s.setIlen v).cfg = s.cfg := rfl
@[simp] theorem State.setIlen_res (s : State) (v : Word) : (s.setIlen v).res = s.res := rfl
@[simp] theorem State.setIlen_stat (s : State) (v : Word) : (s.setIlen v).stat = s.stat := rfl
@[simp] theorem State.setIlen_ilen (s : State) (v : Word) : (s.setIlen v).ilen = v.setWidth 7 := rfl
@[simp] theorem State.setIlen_olen (s : State) (v : Word) : (s.setIlen v).olen = s.olen := rfl
@[simp] theorem State.setIlen_acc (s : State) (v : Word) : (s.setIlen v).acc = s.acc := rfl
@[simp] theorem State.setIlen_log (s : State) (v : Word) : (s.setIlen v).log = s.log := rfl
@[simp] theorem State.setIlen_alog (s : State) (v : Word) : (s.setIlen v).alog = s.alog := rfl
@[simp] theorem State.setIlen_ibuf (s : State) (v : Word) : (s.setIlen v).ibuf = s.ibuf := rfl
@[simp] theorem State.setIlen_obuf (s : State) (v : Word) : (s.setIlen v).obuf = s.obuf := rfl
@[simp] theorem State.setIlen_pending (s : State) (v : Word) : (s.setIlen v).pending = s.pending := rfl
@[simp] theorem State.setIlen_reads (s : State) (v : Word) : (s.setIlen v).reads = s.reads := rfl

/-! ### `putIbuf`: One IBUF entry written. -/

@[simp] theorem State.putIbuf_cfg (s : State) (i : Nat) (v : Word) : (s.putIbuf i v).cfg = s.cfg := rfl
@[simp] theorem State.putIbuf_res (s : State) (i : Nat) (v : Word) : (s.putIbuf i v).res = s.res := rfl
@[simp] theorem State.putIbuf_stat (s : State) (i : Nat) (v : Word) : (s.putIbuf i v).stat = s.stat := rfl
@[simp] theorem State.putIbuf_ilen (s : State) (i : Nat) (v : Word) : (s.putIbuf i v).ilen = s.ilen := rfl
@[simp] theorem State.putIbuf_olen (s : State) (i : Nat) (v : Word) : (s.putIbuf i v).olen = s.olen := rfl
@[simp] theorem State.putIbuf_acc (s : State) (i : Nat) (v : Word) : (s.putIbuf i v).acc = s.acc := rfl
@[simp] theorem State.putIbuf_log (s : State) (i : Nat) (v : Word) : (s.putIbuf i v).log = s.log := rfl
@[simp] theorem State.putIbuf_alog (s : State) (i : Nat) (v : Word) : (s.putIbuf i v).alog = s.alog := rfl
@[simp] theorem State.putIbuf_ibuf (s : State) (i : Nat) (v : Word) : (s.putIbuf i v).ibuf = s.ibuf.write i (v.setWidth 8) := rfl
@[simp] theorem State.putIbuf_obuf (s : State) (i : Nat) (v : Word) : (s.putIbuf i v).obuf = s.obuf := rfl
@[simp] theorem State.putIbuf_pending (s : State) (i : Nat) (v : Word) : (s.putIbuf i v).pending = s.pending := rfl
@[simp] theorem State.putIbuf_reads (s : State) (i : Nat) (v : Word) : (s.putIbuf i v).reads = s.reads := rfl

/-! ### `noteRead`: The host's record of a read. -/

@[simp] theorem State.noteRead_cfg (s : State) (w : Word) : (s.noteRead w).cfg = s.cfg := rfl
@[simp] theorem State.noteRead_res (s : State) (w : Word) : (s.noteRead w).res = s.res := rfl
@[simp] theorem State.noteRead_stat (s : State) (w : Word) : (s.noteRead w).stat = s.stat := rfl
@[simp] theorem State.noteRead_ilen (s : State) (w : Word) : (s.noteRead w).ilen = s.ilen := rfl
@[simp] theorem State.noteRead_olen (s : State) (w : Word) : (s.noteRead w).olen = s.olen := rfl
@[simp] theorem State.noteRead_acc (s : State) (w : Word) : (s.noteRead w).acc = s.acc := rfl
@[simp] theorem State.noteRead_log (s : State) (w : Word) : (s.noteRead w).log = s.log := rfl
@[simp] theorem State.noteRead_alog (s : State) (w : Word) : (s.noteRead w).alog = s.alog := rfl
@[simp] theorem State.noteRead_ibuf (s : State) (w : Word) : (s.noteRead w).ibuf = s.ibuf := rfl
@[simp] theorem State.noteRead_obuf (s : State) (w : Word) : (s.noteRead w).obuf = s.obuf := rfl
@[simp] theorem State.noteRead_pending (s : State) (w : Word) : (s.noteRead w).pending = s.pending := rfl
@[simp] theorem State.noteRead_reads (s : State) (w : Word) : (s.noteRead w).reads = w :: s.reads := rfl

/-! ### `setPending`: The waiting host operations. -/

@[simp] theorem State.setPending_cfg (s : State) (p : List HostOp) : (s.setPending p).cfg = s.cfg := rfl
@[simp] theorem State.setPending_res (s : State) (p : List HostOp) : (s.setPending p).res = s.res := rfl
@[simp] theorem State.setPending_stat (s : State) (p : List HostOp) : (s.setPending p).stat = s.stat := rfl
@[simp] theorem State.setPending_ilen (s : State) (p : List HostOp) : (s.setPending p).ilen = s.ilen := rfl
@[simp] theorem State.setPending_olen (s : State) (p : List HostOp) : (s.setPending p).olen = s.olen := rfl
@[simp] theorem State.setPending_acc (s : State) (p : List HostOp) : (s.setPending p).acc = s.acc := rfl
@[simp] theorem State.setPending_log (s : State) (p : List HostOp) : (s.setPending p).log = s.log := rfl
@[simp] theorem State.setPending_alog (s : State) (p : List HostOp) : (s.setPending p).alog = s.alog := rfl
@[simp] theorem State.setPending_ibuf (s : State) (p : List HostOp) : (s.setPending p).ibuf = s.ibuf := rfl
@[simp] theorem State.setPending_obuf (s : State) (p : List HostOp) : (s.setPending p).obuf = s.obuf := rfl
@[simp] theorem State.setPending_pending (s : State) (p : List HostOp) : (s.setPending p).pending = p := rfl
@[simp] theorem State.setPending_reads (s : State) (p : List HostOp) : (s.setPending p).reads = s.reads := rfl

/-! ### `complete`: A command completes with no value (R133). -/

@[simp] theorem State.complete_cfg (s : State) : s.complete.cfg = s.cfg := rfl
@[simp] theorem State.complete_res (s : State) : s.complete.res = s.res := rfl
@[simp] theorem State.complete_stat (s : State) : s.complete.stat = { s.stat with err := 0 } := rfl
@[simp] theorem State.complete_ilen (s : State) : s.complete.ilen = s.ilen := rfl
@[simp] theorem State.complete_olen (s : State) : s.complete.olen = s.olen := rfl
@[simp] theorem State.complete_acc (s : State) : s.complete.acc = s.acc := rfl
@[simp] theorem State.complete_log (s : State) : s.complete.log = s.log := rfl
@[simp] theorem State.complete_alog (s : State) : s.complete.alog = s.alog := rfl
@[simp] theorem State.complete_ibuf (s : State) : s.complete.ibuf = s.ibuf := rfl
@[simp] theorem State.complete_obuf (s : State) : s.complete.obuf = s.obuf := rfl
@[simp] theorem State.complete_pending (s : State) : s.complete.pending = s.pending := rfl
@[simp] theorem State.complete_reads (s : State) : s.complete.reads = s.reads := rfl

/-! ### `returnValue`: A command completes with a value (R17). -/

@[simp] theorem State.returnValue_cfg (s : State) (w : Word) : (s.returnValue w).cfg = s.cfg := rfl
@[simp] theorem State.returnValue_res (s : State) (w : Word) : (s.returnValue w).res = w := rfl
@[simp] theorem State.returnValue_stat (s : State) (w : Word) : (s.returnValue w).stat = { s.stat with err := 0 } := rfl
@[simp] theorem State.returnValue_ilen (s : State) (w : Word) : (s.returnValue w).ilen = s.ilen := rfl
@[simp] theorem State.returnValue_olen (s : State) (w : Word) : (s.returnValue w).olen = s.olen := rfl
@[simp] theorem State.returnValue_acc (s : State) (w : Word) : (s.returnValue w).acc = s.acc := rfl
@[simp] theorem State.returnValue_log (s : State) (w : Word) : (s.returnValue w).log = s.log := rfl
@[simp] theorem State.returnValue_alog (s : State) (w : Word) : (s.returnValue w).alog = s.alog := rfl
@[simp] theorem State.returnValue_ibuf (s : State) (w : Word) : (s.returnValue w).ibuf = s.ibuf := rfl
@[simp] theorem State.returnValue_obuf (s : State) (w : Word) : (s.returnValue w).obuf = s.obuf := rfl
@[simp] theorem State.returnValue_pending (s : State) (w : Word) : (s.returnValue w).pending = s.pending := rfl
@[simp] theorem State.returnValue_reads (s : State) (w : Word) : (s.returnValue w).reads = s.reads := rfl

/-! ### `raise`: A command ends in an error (R134). -/

@[simp] theorem State.raise_cfg (s : State) (e : ErrCode) : (s.raise e).cfg = s.cfg := rfl
@[simp] theorem State.raise_res (s : State) (e : ErrCode) : (s.raise e).res = s.res := rfl
@[simp] theorem State.raise_stat (s : State) (e : ErrCode) : (s.raise e).stat = { s.stat with err := errBits e } := rfl
@[simp] theorem State.raise_ilen (s : State) (e : ErrCode) : (s.raise e).ilen = s.ilen := rfl
@[simp] theorem State.raise_olen (s : State) (e : ErrCode) : (s.raise e).olen = s.olen := rfl
@[simp] theorem State.raise_acc (s : State) (e : ErrCode) : (s.raise e).acc = s.acc := rfl
@[simp] theorem State.raise_log (s : State) (e : ErrCode) : (s.raise e).log = s.log := rfl
@[simp] theorem State.raise_alog (s : State) (e : ErrCode) : (s.raise e).alog = s.alog := rfl
@[simp] theorem State.raise_ibuf (s : State) (e : ErrCode) : (s.raise e).ibuf = s.ibuf := rfl
@[simp] theorem State.raise_obuf (s : State) (e : ErrCode) : (s.raise e).obuf = s.obuf := rfl
@[simp] theorem State.raise_pending (s : State) (e : ErrCode) : (s.raise e).pending = s.pending := rfl
@[simp] theorem State.raise_reads (s : State) (e : ErrCode) : (s.raise e).reads = s.reads := rfl

/-! ### `raiseEncode`: ENCODE ends in an error (R135). -/

@[simp] theorem State.raiseEncode_cfg (s : State) (e : ErrCode) : (s.raiseEncode e).cfg = s.cfg := rfl
@[simp] theorem State.raiseEncode_res (s : State) (e : ErrCode) : (s.raiseEncode e).res = s.res := rfl
@[simp] theorem State.raiseEncode_stat (s : State) (e : ErrCode) : (s.raiseEncode e).stat = { s.stat with valid := false, btype := 0, err := errBits e } := rfl
@[simp] theorem State.raiseEncode_ilen (s : State) (e : ErrCode) : (s.raiseEncode e).ilen = s.ilen := rfl
@[simp] theorem State.raiseEncode_olen (s : State) (e : ErrCode) : (s.raiseEncode e).olen = 0 := rfl
@[simp] theorem State.raiseEncode_acc (s : State) (e : ErrCode) : (s.raiseEncode e).acc = s.acc := rfl
@[simp] theorem State.raiseEncode_log (s : State) (e : ErrCode) : (s.raiseEncode e).log = s.log := rfl
@[simp] theorem State.raiseEncode_alog (s : State) (e : ErrCode) : (s.raiseEncode e).alog = s.alog := rfl
@[simp] theorem State.raiseEncode_ibuf (s : State) (e : ErrCode) : (s.raiseEncode e).ibuf = s.ibuf := rfl
@[simp] theorem State.raiseEncode_obuf (s : State) (e : ErrCode) : (s.raiseEncode e).obuf = s.obuf := rfl
@[simp] theorem State.raiseEncode_pending (s : State) (e : ErrCode) : (s.raiseEncode e).pending = s.pending := rfl
@[simp] theorem State.raiseEncode_reads (s : State) (e : ErrCode) : (s.raiseEncode e).reads = s.reads := rfl

/-! ### `deliver`: A successful ENCODE's writes (R122). -/

@[simp] theorem State.deliver_cfg (s : State) (ty : BarcodeType) (out : List Digit) : (s.deliver ty out).cfg = s.cfg := rfl
@[simp] theorem State.deliver_res (s : State) (ty : BarcodeType) (out : List Digit) : (s.deliver ty out).res = s.res := rfl
@[simp] theorem State.deliver_stat (s : State) (ty : BarcodeType) (out : List Digit) : (s.deliver ty out).stat = { s.stat with btype := btypeBits ty, valid := true, err := 0 } := rfl
@[simp] theorem State.deliver_ilen (s : State) (ty : BarcodeType) (out : List Digit) : (s.deliver ty out).ilen = s.ilen := rfl
@[simp] theorem State.deliver_olen (s : State) (ty : BarcodeType) (out : List Digit) : (s.deliver ty out).olen = BitVec.ofNat 7 out.length := rfl
@[simp] theorem State.deliver_acc (s : State) (ty : BarcodeType) (out : List Digit) : (s.deliver ty out).acc = s.acc := rfl
@[simp] theorem State.deliver_log (s : State) (ty : BarcodeType) (out : List Digit) : (s.deliver ty out).log = s.log := rfl
@[simp] theorem State.deliver_alog (s : State) (ty : BarcodeType) (out : List Digit) : (s.deliver ty out).alog = s.alog := rfl
@[simp] theorem State.deliver_ibuf (s : State) (ty : BarcodeType) (out : List Digit) : (s.deliver ty out).ibuf = s.ibuf := rfl
@[simp] theorem State.deliver_obuf (s : State) (ty : BarcodeType) (out : List Digit) : (s.deliver ty out).obuf = writeDigits s.obuf 0 out := rfl
@[simp] theorem State.deliver_pending (s : State) (ty : BarcodeType) (out : List Digit) : (s.deliver ty out).pending = s.pending := rfl
@[simp] theorem State.deliver_reads (s : State) (ty : BarcodeType) (out : List Digit) : (s.deliver ty out).reads = s.reads := rfl

/-! ### `rst`: Reset (R149). -/

@[simp] theorem State.rst_cfg (s : State) : s.rst.cfg = s.cfg := rfl
@[simp] theorem State.rst_res (s : State) : s.rst.res = 0 := rfl
@[simp] theorem State.rst_stat (s : State) : s.rst.stat = { err := 0, btype := 0, valid := false, ready := false } := rfl
@[simp] theorem State.rst_ilen (s : State) : s.rst.ilen = 0 := rfl
@[simp] theorem State.rst_olen (s : State) : s.rst.olen = 0 := rfl
@[simp] theorem State.rst_acc (s : State) : s.rst.acc = Vector.replicate 4 0 := rfl
@[simp] theorem State.rst_log (s : State) : s.rst.log = Vector.replicate 64 0 := rfl
@[simp] theorem State.rst_alog (s : State) : s.rst.alog = Vector.replicate 64 0 := rfl
@[simp] theorem State.rst_ibuf (s : State) : s.rst.ibuf = ⟨[]⟩ := rfl
@[simp] theorem State.rst_obuf (s : State) : s.rst.obuf = ⟨[]⟩ := rfl
@[simp] theorem State.rst_pending (s : State) : s.rst.pending = s.pending := rfl
@[simp] theorem State.rst_reads (s : State) : s.rst.reads = s.reads := rfl

/-! ### `genTables`: The table generator (R77). -/

@[simp] theorem State.genTables_cfg (s : State) : s.genTables.cfg = s.cfg := rfl
@[simp] theorem State.genTables_res (s : State) : s.genTables.res = s.res := rfl
@[simp] theorem State.genTables_stat (s : State) : s.genTables.stat = { s.stat with ready := true } := rfl
@[simp] theorem State.genTables_ilen (s : State) : s.genTables.ilen = s.ilen := rfl
@[simp] theorem State.genTables_olen (s : State) : s.genTables.olen = s.olen := rfl
@[simp] theorem State.genTables_acc (s : State) : s.genTables.acc = s.acc := rfl
@[simp] theorem State.genTables_log (s : State) : s.genTables.log = (builtTables s.cfg.gfPoly s.log s.alog).1 := rfl
@[simp] theorem State.genTables_alog (s : State) : s.genTables.alog = (builtTables s.cfg.gfPoly s.log s.alog).2 := rfl
@[simp] theorem State.genTables_ibuf (s : State) : s.genTables.ibuf = s.ibuf := rfl
@[simp] theorem State.genTables_obuf (s : State) : s.genTables.obuf = s.obuf := rfl
@[simp] theorem State.genTables_pending (s : State) : s.genTables.pending = s.pending := rfl
@[simp] theorem State.genTables_reads (s : State) : s.genTables.reads = s.reads := rfl

/-! ### `ensureTables`: first-use initialisation (R80). -/

/-- Everything `ensureTables` can do. -/
theorem State.ensureTables_cases (s : State) :
    (s.stat.ready = true ∧ s.ensureTables = s) ∨ (s.stat.ready = false ∧ s.ensureTables = s.genTables) := by
  unfold State.ensureTables
  cases h : s.stat.ready <;> simp

theorem State.ensureTables_of_ready (s : State) (h : s.stat.ready = true) : s.ensureTables = s := by
  simp [State.ensureTables, h]

theorem State.ensureTables_of_not_ready (s : State) (h : s.stat.ready = false) : s.ensureTables = s.genTables := by
  simp [State.ensureTables, h]

@[simp] theorem State.ensureTables_cfg (s : State) : s.ensureTables.cfg = s.cfg := by
  rcases s.ensureTables_cases with ⟨-, h⟩ | ⟨-, h⟩
  · rw [h]
  · rw [h]; rfl
@[simp] theorem State.ensureTables_res (s : State) : s.ensureTables.res = s.res := by
  rcases s.ensureTables_cases with ⟨-, h⟩ | ⟨-, h⟩
  · rw [h]
  · rw [h]; rfl
@[simp] theorem State.ensureTables_ilen (s : State) : s.ensureTables.ilen = s.ilen := by
  rcases s.ensureTables_cases with ⟨-, h⟩ | ⟨-, h⟩
  · rw [h]
  · rw [h]; rfl
@[simp] theorem State.ensureTables_olen (s : State) : s.ensureTables.olen = s.olen := by
  rcases s.ensureTables_cases with ⟨-, h⟩ | ⟨-, h⟩
  · rw [h]
  · rw [h]; rfl
@[simp] theorem State.ensureTables_acc (s : State) : s.ensureTables.acc = s.acc := by
  rcases s.ensureTables_cases with ⟨-, h⟩ | ⟨-, h⟩
  · rw [h]
  · rw [h]; rfl
@[simp] theorem State.ensureTables_ibuf (s : State) : s.ensureTables.ibuf = s.ibuf := by
  rcases s.ensureTables_cases with ⟨-, h⟩ | ⟨-, h⟩
  · rw [h]
  · rw [h]; rfl
@[simp] theorem State.ensureTables_obuf (s : State) : s.ensureTables.obuf = s.obuf := by
  rcases s.ensureTables_cases with ⟨-, h⟩ | ⟨-, h⟩
  · rw [h]
  · rw [h]; rfl
@[simp] theorem State.ensureTables_pending (s : State) : s.ensureTables.pending = s.pending := by
  rcases s.ensureTables_cases with ⟨-, h⟩ | ⟨-, h⟩
  · rw [h]
  · rw [h]; rfl
@[simp] theorem State.ensureTables_reads (s : State) : s.ensureTables.reads = s.reads := by
  rcases s.ensureTables_cases with ⟨-, h⟩ | ⟨-, h⟩
  · rw [h]
  · rw [h]; rfl
@[simp] theorem State.ensureTables_stat (s : State) : s.ensureTables.stat = { s.stat with ready := true } := by
  rcases s.ensureTables_cases with ⟨hr, h⟩ | ⟨-, h⟩ <;> rw [h]
  · rw [← hr]
  · rfl

end Sys2Proof.Machine
end

