-- ==== Sys2Proof/Laws/Exec.lean ====
section
/-! SUPPORT. What each command's meaning can answer, said once: an equation where it answers one state, an equation per case
where it branches. -/

namespace Sys2Proof.Machine

@[simp] theorem exec_nop (s : State) : exec .nop s = .next s.complete := rfl

@[simp] theorem exec_gfinit (s : State) : exec .gfinit s = .next s.genTables.complete := rfl

@[simp] theorem exec_gflog (a : Sym) (s : State) :
    exec (.gflog a) s = .next (s.ensureTables.returnValue ((tableGet s.ensureTables.log a).setWidth 16)) := rfl

@[simp] theorem exec_gfexp (a : Sym) (s : State) :
    exec (.gfexp a) s = .next (s.ensureTables.returnValue ((tableGet s.ensureTables.alog a).setWidth 16)) := rfl

@[simp] theorem exec_gfmul (a b : Sym) (s : State) :
    exec (.gfmul a b) s =
      .next (s.ensureTables.returnValue ((gfMul s.ensureTables.log s.ensureTables.alog a b).setWidth 16)) := rfl

@[simp] theorem exec_pclr (s : State) : exec .pclr s = .next (s.setAcc accZero).complete := rfl

@[simp] theorem exec_pfeed (a : Sym) (s : State) :
    exec (.pfeed a) s =
      .next (s.ensureTables.setAcc (lfsrNext s.ensureTables.mul s.cfg.rsCoeff s.acc a)).complete := by
  change Host.Outcome.next _ = _
  simp only [State.ensureTables_cfg, State.ensureTables_acc]

@[simp] theorem exec_pread (k : BitVec 2) (s : State) :
    exec (.pread k) s = .next (s.returnValue ((checkSym s.acc k).setWidth 16)) := rfl

theorem exec_clookup_of_some {c : Byte} {i : Sym} (h : charIndex c = some i) (s : State) :
    exec (.clookup c) s = .next (s.returnValue (i.setWidth 16)) := by
  simp [exec, execClookup, h]

theorem exec_clookup_of_none {c : Byte} (h : charIndex c = none) (s : State) :
    exec (.clookup c) s = .next (s.raise .encNotInAlphabet) := by
  simp [exec, execClookup, h]

theorem exec_nenc_of_digit {c : Byte} (h : isDigit c = true) (s : State) :
    exec (.nenc c) s = .next (s.returnValue ((pack2 (nEnc s.cfg c)).setWidth 16)) := by
  simp [exec, execNenc, h]

theorem exec_nenc_of_not_digit {c : Byte} (h : isDigit c = false) (s : State) :
    exec (.nenc c) s = .next (s.raise .encNotInAlphabet) := by
  simp [exec, execNenc, h]

theorem exec_cenc_of_some {c : Byte} {s : State} {t : Triple} (h : cEnc s.cfg c = some t) :
    exec (.cenc c) s = .next (s.returnValue ((pack3 t).setWidth 16)) := by
  simp [exec, execCenc, h]

theorem exec_cenc_of_none {c : Byte} {s : State} (h : cEnc s.cfg c = none) :
    exec (.cenc c) s = .next (s.raise .encNotInAlphabet) := by
  simp [exec, execCenc, h]

@[simp] theorem exec_barexp (a : Sym) (s : State) :
    exec (.barexp a) s = .next (s.returnValue ((pack3 (barExp s.cfg a)).setWidth 16)) := rfl

@[simp] theorem exec_pack (d0 d1 d2 : Digit) (s : State) :
    exec (.pack d0 d1 d2) s = .next (s.returnValue ((pack3 ⟨d0, d1, d2⟩).setWidth 16)) := rfl

@[simp] theorem exec_barshape (k : Digit) (s : State) :
    exec (.barshape k) s = .next (s.returnValue (shapeWord (shapeOf k))) := rfl

@[simp] theorem exec_illegal (w : Word) (s : State) : exec (.illegal w) s = .next (s.raise .illegalCmd) := rfl

/-! ### ENCODE -/

/-- Everything the assembly can do (R115, R122). -/
theorem State.assemble_cases (s : State) (ty : BarcodeType) (body : List Digit) :
    (body.length % 3 ≠ 0 ∧ s.assemble ty body = s.raiseEncode .internal) ∨
    (body.length % 3 = 0 ∧
      s.assemble ty body =
        (s.setAcc (lfsrFeed s.mul s.cfg.rsCoeff accZero (groupSyms body))).deliver ty
          (framed body (parityDigits s.cfg (lfsrFeed s.mul s.cfg.rsCoeff accZero (groupSyms body))))) := by
  by_cases h : body.length % 3 = 0 <;> simp [State.assemble, h]

/-- Everything ENCODE can answer, in the order of its checks (R122, R138). -/
theorem exec_encode_cases (s : State) :
    (s.cfg.ibufSize < s.ilen.toNat ∧ exec .encode s = .next (s.ensureTables.raiseEncode .bufRange)) ∨
    (s.ilen.toNat ≤ s.cfg.ibufSize ∧
      ((∃ i, readEntries s.ibuf 0 s.ilen.toNat = .error i ∧ exec .encode s = .fault (.unwrittenEntry .ibuf i)) ∨
       (∃ str, readEntries s.ibuf 0 s.ilen.toNat = .ok str ∧
         ((∃ e, codec s.cfg str = .error e ∧ exec .encode s = .next (s.ensureTables.raiseEncode e)) ∨
          (∃ ty body, codec s.cfg str = .ok (ty, body) ∧
            exec .encode s = .next (s.ensureTables.assemble ty body)))))) := by
  by_cases h : s.cfg.ibufSize < s.ilen.toNat
  · left
    exact ⟨h, by simp [exec, execEncode, h]⟩
  · right
    refine ⟨by omega, ?_⟩
    cases hr : readEntries s.ibuf 0 s.ilen.toNat with
    | error i =>
      left
      exact ⟨i, rfl, by simp [exec, execEncode, h, hr]⟩
    | ok str =>
      right
      refine ⟨str, rfl, ?_⟩
      cases hc : codec s.cfg str with
      | error e =>
        left
        exact ⟨e, rfl, by simp [exec, execEncode, h, hr, hc]⟩
      | ok r =>
        right
        obtain ⟨ty, body⟩ := r
        exact ⟨ty, body, rfl, by simp [exec, execEncode, h, hr, hc]⟩

end Sys2Proof.Machine
end

