-- ==== Sys2Proof/Laws/Host.lean ====
section
/-! SUPPORT. What a host operation and a step can do (spec/20_memory.md). -/

namespace Sys2Proof.Machine

/-- What a host write can do, by what the address names (R36). -/
theorem hostWrite_cases (s : State) (a : Addr) (v : Word) :
    (hostMap a = .cmd ∧ hostWrite s a v = exec (decode v) s) ∨
    (hostMap a = .ilen ∧ hostWrite s a v = .next (s.setIlen v)) ∨
    (∃ i, hostMap a = .ibuf i ∧ hostWrite s a v = .next (s.putIbuf i v)) ∨
    ((hostMap a = .res ∨ hostMap a = .stat ∨ hostMap a = .olen ∨ (∃ i, hostMap a = .obuf i) ∨ hostMap a = .reserved) ∧
      hostWrite s a v = .next s) := by
  unfold hostWrite
  cases hostMap a <;> simp

/-- Everything one host operation can do. -/
theorem hostStep_cases (s : State) (op : HostOp) :
    (∃ a w, op = .read a ∧ hostRead s a = .ok w ∧ hostStep s op = .next (s.noteRead w)) ∨
    (∃ a f, op = .read a ∧ hostRead s a = .error f ∧ hostStep s op = .fault f) ∨
    (∃ a v, op = .write a v ∧ hostStep s op = hostWrite s a v) ∨
    (op = .reset ∧ hostStep s op = .next s.rst) := by
  cases op with
  | read a =>
    cases h : hostRead s a with
    | ok w => exact .inl ⟨a, w, rfl, h, by simp [hostStep, h]⟩
    | error f => exact .inr (.inl ⟨a, f, rfl, h, by simp [hostStep, h]⟩)
  | write a v => exact .inr (.inr (.inl ⟨a, v, rfl, rfl⟩))
  | reset => exact .inr (.inr (.inr ⟨rfl, rfl⟩))

/-- Everything a step can do. -/
theorem step_cases (s : State) :
    (admits s.cfg = false ∧ step s = .refused .illFormedConfig) ∨
    (admits s.cfg = true ∧ s.pending = [] ∧ step s = .next s) ∨
    (admits s.cfg = true ∧ ∃ op rest, s.pending = op :: rest ∧ step s = hostStep (s.setPending rest) op) := by
  unfold step machineStep
  cases ha : admits s.cfg
  · simp
  · cases hp : s.pending with
    | nil => simp
    | cons op rest => exact .inr (.inr ⟨rfl, op, rest, rfl, by simp⟩)

/-- The addresses of the IBUF window (R36). -/
theorem hostMap_ibuf (i : Nat) (h : i < 64) : hostMap (BitVec.ofNat 8 (0x40 + i)) = .ibuf i := by
  have hn : (BitVec.ofNat 8 (0x40 + i)).toNat = 0x40 + i := by
    rw [BitVec.toNat_ofNat]
    omega
  unfold hostMap
  dsimp only
  rw [hn, if_neg (by omega), if_neg (by omega), if_neg (by omega), if_neg (by omega), if_neg (by omega),
    if_pos (by omega), Nat.add_sub_cancel_left]

/-- The addresses of the OBUF window (R36). -/
theorem hostMap_obuf (i : Nat) (h : i < 67) : hostMap (BitVec.ofNat 8 (0x80 + i)) = .obuf i := by
  have hn : (BitVec.ofNat 8 (0x80 + i)).toNat = 0x80 + i := by
    rw [BitVec.toNat_ofNat]
    omega
  unfold hostMap
  dsimp only
  rw [hn, if_neg (by omega), if_neg (by omega), if_neg (by omega), if_neg (by omega), if_neg (by omega),
    if_neg (by omega), if_pos (by omega), Nat.add_sub_cancel_left]

/-- The reserved addresses (R37). -/
theorem hostMap_reserved (a : Addr) (h : (0x05 ≤ a.toNat ∧ a.toNat ≤ 0x3F) ∨ 0xC3 ≤ a.toNat) :
    hostMap a = .reserved := by
  unfold hostMap
  dsimp only
  rw [if_neg (by omega), if_neg (by omega), if_neg (by omega), if_neg (by omega), if_neg (by omega),
    if_neg (by omega), if_neg (by omega)]

/-- Every IBUF index the map gives is below 64, every OBUF index below 67 (R36). -/
theorem hostMap_index (a : Addr) :
    (∀ i, hostMap a = .ibuf i → i < 64 ∧ a.toNat = 0x40 + i) ∧ (∀ i, hostMap a = .obuf i → i < 67 ∧ a.toNat = 0x80 + i) := by
  unfold hostMap
  dsimp only
  constructor <;> intro i h <;> (repeat' (split at h)) <;> first | (injection h; omega) | cases h

end Sys2Proof.Machine
end

