-- ==== Sys2Proof/Laws/Memory.lean ====
section
/-! SUPPORT. The laws of the buffers: read after write, other entries, the canonical form, and reads of several entries. -/

namespace Sys2Proof.Machine

/-! ### One entry -/

theorem cellsRead_cellsWrite (l : List Host.Cell) (i : Nat) (b : Byte) (j : Nat) (low : Nat)
    (h : cellsRising low l = true) : cellsRead (cellsWrite l i b) j = if i = j then some b else cellsRead l j := by
  induction l generalizing low with
  | nil => simp [cellsWrite, cellsRead]
  | cons c rest ih =>
    obtain ⟨k, v⟩ := c
    simp only [cellsRising, Bool.and_eq_true, decide_eq_true_eq] at h
    by_cases h1 : i < k
    · simp [cellsWrite, h1, cellsRead]
    · by_cases h2 : i = k
      · subst h2
        by_cases h3 : i = j <;> simp [cellsWrite, cellsRead, h3]
      · by_cases h3 : k = j
        · subst h3
          simp [cellsWrite, h1, h2, cellsRead]
        · simp [cellsWrite, h1, h2, cellsRead, h3, ih _ h.2]

theorem cellsRising_mono (l : List Host.Cell) {low low' : Nat} (hle : low' ≤ low) (h : cellsRising low l = true) :
    cellsRising low' l = true := by
  cases l with
  | nil => rfl
  | cons c rest =>
    obtain ⟨k, v⟩ := c
    simp only [cellsRising, Bool.and_eq_true, decide_eq_true_eq] at h ⊢
    exact ⟨by omega, h.2⟩

theorem cellsRising_cellsWrite (l : List Host.Cell) (i : Nat) (b : Byte) (low : Nat) (hi : low ≤ i)
    (h : cellsRising low l = true) : cellsRising low (cellsWrite l i b) = true := by
  induction l generalizing low with
  | nil => simp [cellsWrite, cellsRising, hi]
  | cons c rest ih =>
    obtain ⟨k, v⟩ := c
    simp only [cellsRising, Bool.and_eq_true, decide_eq_true_eq] at h
    by_cases h1 : i < k
    · simp only [cellsWrite, h1, if_true, cellsRising, Bool.and_eq_true, decide_eq_true_eq]
      exact ⟨hi, by omega, h.2⟩
    · by_cases h2 : i = k
      · subst h2
        simp [cellsWrite, cellsRising, hi, h.2]
      · simp only [cellsWrite, h1, h2, if_false, cellsRising, Bool.and_eq_true, decide_eq_true_eq]
        exact ⟨h.1, ih _ (by omega) h.2⟩

/-- A read after a write: the value written at that entry, every other entry as before. -/
theorem Memory.read_write (m : Memory) (i j : Nat) (b : Byte) (h : m.wf = true) :
    (m.write i b).read? j = if i = j then some b else m.read? j :=
  cellsRead_cellsWrite m.cells i b j 0 h

theorem Memory.read_write_same (m : Memory) (i : Nat) (b : Byte) (h : m.wf = true) : (m.write i b).read? i = some b := by
  simp [m.read_write i i b h]

theorem Memory.read_write_other (m : Memory) {i j : Nat} (b : Byte) (h : m.wf = true) (hij : i ≠ j) :
    (m.write i b).read? j = m.read? j := by
  simp [m.read_write i j b h, hij]

/-- A write keeps the canonical form. -/
theorem Memory.write_wf (m : Memory) (i : Nat) (b : Byte) (h : m.wf = true) : (m.write i b).wf = true :=
  cellsRising_cellsWrite m.cells i b 0 (Nat.zero_le _) h

@[simp] theorem Memory.empty_wf : (⟨[]⟩ : Memory).wf = true := rfl

@[simp] theorem Memory.empty_read (i : Nat) : (⟨[]⟩ : Memory).read? i = none := rfl

/-- The buffers at reset have the canonical form. -/
theorem reset_buffers_wf : State.reset.ibuf.wf = true ∧ State.reset.obuf.wf = true := ⟨rfl, rfl⟩

/-! ### A string of digits -/

/-- Writing a string of digits keeps the canonical form. -/
theorem writeDigits_wf (ds : List Digit) (m : Memory) (i : Nat) (h : m.wf = true) : (writeDigits m i ds).wf = true := by
  induction ds generalizing m i with
  | nil => exact h
  | cons d ds ih => exact ih _ _ (m.write_wf i _ h)

/-- Entries below the string are as before. -/
theorem writeDigits_below (ds : List Digit) (m : Memory) (i j : Nat) (h : m.wf = true) (hj : j < i) :
    (writeDigits m i ds).read? j = m.read? j := by
  induction ds generalizing m i with
  | nil => rfl
  | cons d ds ih =>
    rw [writeDigits, ih _ _ (m.write_wf i _ h) (by omega), m.read_write_other _ h (by omega)]

/-- Entries above the string are as before. -/
theorem writeDigits_above (ds : List Digit) (m : Memory) (i j : Nat) (h : m.wf = true) (hj : i + ds.length ≤ j) :
    (writeDigits m i ds).read? j = m.read? j := by
  induction ds generalizing m i with
  | nil => rfl
  | cons d ds ih =>
    simp only [List.length_cons] at hj
    rw [writeDigits, ih _ _ (m.write_wf i _ h) (by omega), m.read_write_other _ h (by omega)]

/-- The entries of the string hold its digits. -/
theorem writeDigits_at (ds : List Digit) (m : Memory) (i k : Nat) (h : m.wf = true) (hk : k < ds.length) :
    (writeDigits m i ds).read? (i + k) = some (ds[k].setWidth 8) := by
  induction ds generalizing m i k with
  | nil => simp at hk
  | cons d ds ih =>
    rw [writeDigits]
    cases k with
    | zero =>
      rw [Nat.add_zero, writeDigits_below _ _ _ _ (m.write_wf i _ h) (by omega)]
      exact m.read_write_same i _ h
    | succ k =>
      have hk' : k < ds.length := by simpa using hk
      have := ih (m.write i (d.setWidth 8)) (i + 1) k (m.write_wf i _ h) hk'
      rw [show i + (k + 1) = i + 1 + k by omega, this]
      rfl

/-! ### Reading several entries -/

/-- `readEntries` answers a string exactly where every entry holds a value, and then it is those values in index order. -/
theorem readEntries_ok_iff (m : Memory) (n i : Nat) (bs : List Byte) :
    readEntries m i n = .ok bs ↔ bs.length = n ∧ ∀ k (h : k < bs.length), m.read? (i + k) = some bs[k] := by
  induction n generalizing i bs with
  | zero =>
    constructor
    · intro h
      cases h
      simp
    · rintro ⟨hl, -⟩
      cases bs with
      | nil => rfl
      | cons _ _ => simp at hl
  | succ n ih =>
    constructor
    · intro h
      rw [readEntries] at h
      split at h
      · cases h
      · next b hb =>
        split at h
        · cases h
        · next rest hrest =>
          cases h
          obtain ⟨hl, hall⟩ := (ih (i + 1) rest).1 hrest
          refine ⟨by simp [hl], fun k hk => ?_⟩
          cases k with
          | zero => simpa using hb
          | succ k =>
            have := hall k (by simpa using hk)
            rw [show i + (k + 1) = i + 1 + k by omega, this]
            rfl
    · rintro ⟨hl, hall⟩
      cases bs with
      | nil => simp at hl
      | cons b rest =>
        have hb : m.read? i = some b := hall 0 (by simp)
        have hrest : readEntries m (i + 1) n = .ok rest := by
          refine (ih (i + 1) rest).2 ⟨by simpa using hl, fun k hk => ?_⟩
          have := hall (k + 1) (by simpa using hk)
          rw [show i + (k + 1) = i + 1 + k by omega] at this
          simpa using this
        rw [readEntries, hb]
        simp [hrest]

/-- `readEntries` answers an index exactly where that is the first entry that holds no value. -/
theorem readEntries_error_iff (m : Memory) (n i j : Nat) :
    readEntries m i n = .error j ↔
      i ≤ j ∧ j < i + n ∧ m.read? j = none ∧ ∀ k, i ≤ k → k < j → (m.read? k).isSome = true := by
  induction n generalizing i with
  | zero =>
    constructor
    · intro h
      cases h
    · rintro ⟨h1, h2, -⟩
      omega
  | succ n ih =>
    rw [readEntries]
    cases hb : m.read? i with
    | none =>
      simp only [Except.error.injEq]
      constructor
      · rintro rfl
        exact ⟨Nat.le_refl _, by omega, hb, fun k h1 h2 => by omega⟩
      · rintro ⟨h1, -, -, h4⟩
        rcases Nat.lt_or_eq_of_le h1 with h | h
        · have := h4 i (Nat.le_refl _) h
          simp [hb] at this
        · exact h
    | some b =>
      have key : (i + 1 ≤ j ∧ j < i + 1 + n ∧ m.read? j = none ∧ ∀ k, i + 1 ≤ k → k < j → (m.read? k).isSome = true) ↔
          (i ≤ j ∧ j < i + (n + 1) ∧ m.read? j = none ∧ ∀ k, i ≤ k → k < j → (m.read? k).isSome = true) := by
        constructor
        · rintro ⟨h1, h2, h3, h4⟩
          refine ⟨by omega, by omega, h3, fun k hk1 hk2 => ?_⟩
          rcases Nat.lt_or_eq_of_le hk1 with h | h
          · exact h4 k h hk2
          · rw [← h, hb]
            rfl
        · rintro ⟨h1, h2, h3, h4⟩
          have hne : i ≠ j := by
            rintro rfl
            rw [hb] at h3
            cases h3
          exact ⟨by omega, by omega, h3, fun k hk1 hk2 => h4 k (by omega) hk2⟩
      rw [← key, ← ih (i + 1)]
      cases hr : readEntries m (i + 1) n <;> simp

end Sys2Proof.Machine
end

