-- ==== Sys2Proof/Laws/PerInstr.lean ====
section
/-! SUPPORT. A statement about every instruction, proved per instruction: the word a well-formed command is encoded as is an
illegal word exactly where the command is ILLEGAL (spec/30_encoding.md R64, R68). -/

namespace Sys2Proof.Laws

open Sys2Proof.Machine

/-- The command is ILLEGAL, which stands for every word with no command. -/
def EncodedLegality.isIllegalForm : Instr → Bool
  | .illegal _ => true
  | .nop => false
  | .gfinit => false
  | .gflog _ => false
  | .gfexp _ => false
  | .gfmul _ _ => false
  | .pclr => false
  | .pfeed _ => false
  | .pread _ => false
  | .clookup _ => false
  | .nenc _ => false
  | .cenc _ => false
  | .barexp _ => false
  | .pack _ _ _ => false
  | .barshape _ => false
  | .encode => false

/-- A well-formed instruction's word is illegal exactly where the instruction is ILLEGAL. -/
def EncodedLegality.Statement (i : Instr) : Prop :=
  i.wf = true → isIllegalWord (encode i) = EncodedLegality.isIllegalForm i

/-! ### A word keeps its opcode, and the bits of its mask are those of the opcode alone -/

/-- Bits 12 to 15 of `opBits op` are the opcode, the others 0. -/
theorem opBits_bit (op : BitVec 4) (i : Nat) : (opBits op).getLsbD i = (decide (12 ≤ i) && op.getLsbD (i - 12)) := by
  by_cases h : 12 ≤ i
  · by_cases h16 : i < 16
    · simp [opBits, h, h16]
    · simp [opBits, h16, BitVec.getLsbD_of_ge op (i - 12) (by omega)]
  · simp [opBits, h]

/-- A word whose other bits lie below bit 12 has the opcode it is built with. -/
theorem opcodeOf_opBits_or (op : BitVec 4) (v : Word) (hv : ∀ i, 12 ≤ i → v.getLsbD i = false) :
    opcodeOf (opBits op ||| v) = op := by
  apply BitVec.eq_of_getLsbD_eq
  intro i hi
  simp [opcodeOf, hi, opBits_bit, hv]

/-- The mask keeps the opcode and drops the operand bits. -/
theorem mask_opBits_or (op : BitVec 4) (v mask : Word) (ho : opBits op &&& mask = opBits op) (hv : v &&& mask = 0) :
    (opBits op ||| v) &&& mask = opBits op := by
  have h : (opBits op ||| v) &&& mask = (opBits op &&& mask) ||| (v &&& mask) := by
    apply BitVec.eq_of_getLsbD_eq
    intro i _
    simp only [BitVec.getLsbD_and, BitVec.getLsbD_or, Bool.and_or_distrib_right]
  rw [h, ho, hv]
  simp

/-- A word built with the opcode of a row, with operand bits only, is legal. -/
theorem opBits_or_legal {op : BitVec 4} {r : OpRow} (hr : rowOf op = some r) (hm : r.matchBits = opBits op) (v : Word)
    (ho : opBits op &&& r.mask = opBits op) (hv : v &&& r.mask = 0) (hv12 : ∀ i, 12 ≤ i → v.getLsbD i = false) :
    isIllegalWord (opBits op ||| v) = false := by
  simp only [isIllegalWord, opcodeOf_opBits_or op v hv12, hr, mask_opBits_or op v r.mask ho hv, hm]
  simp

/-- The bits of two symbols side by side. -/
theorem twoSyms_bits (a b : Sym) :
    (((a.setWidth 16 <<< 6) ||| b.setWidth 16 : Word) &&& 0xF000 = 0) ∧
      ∀ i, 12 ≤ i → ((a.setWidth 16 <<< 6) ||| b.setWidth 16 : Word).getLsbD i = false := by
  have key : ∀ i, 12 ≤ i → ((a.setWidth 16 <<< 6) ||| b.setWidth 16 : Word).getLsbD i = false := by
    intro i hi
    simp only [BitVec.getLsbD_or, BitVec.getLsbD_shiftLeft, BitVec.getLsbD_setWidth,
      BitVec.getLsbD_of_ge a (i - 6) (by omega), BitVec.getLsbD_of_ge b i (by omega)]
    simp
  refine ⟨BitVec.eq_of_getLsbD_eq fun i _ => ?_, key⟩
  rw [BitVec.getLsbD_and]
  by_cases h : 12 ≤ i
  · rw [key i h]
    simp
  · have hlow : ∀ j, j < 12 → (0xF000 : Word).getLsbD j = false := by decide
    rw [hlow i (by omega)]
    simp

/-! ### One lemma per instruction -/

theorem EncodedLegality.nop : EncodedLegality.Statement .nop := fun _ => by decide

theorem EncodedLegality.gfinit : EncodedLegality.Statement .gfinit := fun _ => by decide

theorem EncodedLegality.gflog (a : Sym) : EncodedLegality.Statement (.gflog a) := fun _ => by
  revert a
  decide

theorem EncodedLegality.gfexp (a : Sym) : EncodedLegality.Statement (.gfexp a) := fun _ => by
  revert a
  decide

theorem EncodedLegality.gfmul (a b : Sym) : EncodedLegality.Statement (.gfmul a b) := fun _ => by
  have h := opBits_or_legal (op := 0x4) (r := ⟨0x4, "GFMUL", .ab, 0x4000, 0xF000⟩) (by decide) (by decide)
    ((a.setWidth 16 <<< 6) ||| b.setWidth 16) (by decide) (twoSyms_bits a b).1 (twoSyms_bits a b).2
  rw [← BitVec.or_assoc] at h
  exact h

theorem EncodedLegality.pclr : EncodedLegality.Statement .pclr := fun _ => by decide

theorem EncodedLegality.pfeed (a : Sym) : EncodedLegality.Statement (.pfeed a) := fun _ => by
  revert a
  decide

theorem EncodedLegality.pread (k : BitVec 2) : EncodedLegality.Statement (.pread k) := fun _ => by
  revert k
  decide

theorem EncodedLegality.clookup (c : Byte) : EncodedLegality.Statement (.clookup c) := fun _ => by
  revert c
  decide

theorem EncodedLegality.nenc (c : Byte) : EncodedLegality.Statement (.nenc c) := fun _ => by
  revert c
  decide

theorem EncodedLegality.cenc (c : Byte) : EncodedLegality.Statement (.cenc c) := fun _ => by
  revert c
  decide

theorem EncodedLegality.barexp (a : Sym) : EncodedLegality.Statement (.barexp a) := fun _ => by
  revert a
  decide

theorem EncodedLegality.pack (d0 d1 d2 : Digit) : EncodedLegality.Statement (.pack d0 d1 d2) := fun _ => by
  revert d0 d1 d2
  decide

theorem EncodedLegality.barshape (k : Digit) : EncodedLegality.Statement (.barshape k) := fun _ => by
  revert k
  decide

theorem EncodedLegality.encode : EncodedLegality.Statement .encode := fun _ => by decide

theorem EncodedLegality.illegal (w : Word) : EncodedLegality.Statement (.illegal w) := fun h => h

end Sys2Proof.Laws
end

