-- ==== Sys2Proof/Tests/Slice0.lean ====
section
/-! SUPPORT. Tests. The expected values are those of spec/95_test_vectors.md (the vector is named beside each), or words written
out from the formats and the opcode map of spec/30_encoding.md. The second half shows, for the statements of
Sys2Proof/Certificates/Slice0/Obligations.lean that have hypotheses, states and operands that meet them. -/

namespace Sys2Proof.Tests

open Sys2Proof.Machine

/-! ### WellFormed refuses a word that decodes to a command -/

theorem test_wf_refuses_legal_word : (Instr.illegal 0x0000).wf = false := by decide

theorem test_wf_refuses_legal_encode : (Instr.illegal 0xE000).wf = false := by decide

theorem test_wf_takes_illegal_word : (Instr.illegal 0x2040).wf = true := by decide

/-! ### Decoding (R56 to R61, R63): each word is written bit by bit, the OP nibble first -/

theorem test_decode_nop : decode 0b0000_0000_0000_0000 = .nop := by decide
theorem test_decode_gfinit : decode 0b0001_0000_0000_0000 = .gfinit := by decide
theorem test_decode_gflog : decode 0b0010_0000_0010_0001 = .gflog 33 := by decide
theorem test_decode_gfexp : decode 0b0011_0000_0010_0110 = .gfexp 38 := by decide
theorem test_decode_gfmul : decode 0b0100_000010_100000 = .gfmul 2 32 := by decide
theorem test_decode_pclr : decode 0b0101_0000_0000_0000 = .pclr := by decide
theorem test_decode_pfeed : decode 0b0110_0000_0011_1111 = .pfeed 63 := by decide
theorem test_decode_pread : decode 0b0111_0000_0000_0010 = .pread 2 := by decide
theorem test_decode_clookup : decode 0b1000_0000_0101_1010 = .clookup 0x5A := by decide
theorem test_decode_nenc : decode 0b1001_0000_0011_0111 = .nenc 0x37 := by decide
theorem test_decode_cenc : decode 0b1010_0000_0010_0011 = .cenc 0x23 := by decide
theorem test_decode_barexp : decode 0b1011_0000_0001_1011 = .barexp 27 := by decide
theorem test_decode_pack : decode 0b1100_0001_0010_0011 = .pack 1 2 3 := by decide
theorem test_decode_barshape : decode 0b1101_0000_0000_0010 = .barshape 2 := by decide
theorem test_decode_encode : decode 0b1110_0000_0000_0000 = .encode := by decide
theorem test_decode_reserved_bit : decode 0b1100_0000_0000_0100 = .illegal 0xC004 := by decide
theorem test_decode_opcode_f : decode 0b1111_1111_1111_1111 = .illegal 0xFFFF := by decide
theorem test_decode_two_words : decodeTableWord 32 0x1000 = none := by decide

/-! ### Small states, and a view of an outcome -/

/-- The codes of the characters of a literal (R9, R10). -/
def codes (cs : List Char) : List Byte := cs.map (fun c => BitVec.ofNat 8 c.toNat)

/-- Cells of consecutive entries. -/
def cellsOf (bs : List Byte) : List Host.Cell := (List.range bs.length).zip bs

/-- After reset, with a string loaded as LOADSTR leaves it (R73). -/
def loaded (cs : List Char) : State :=
  { State.reset with ilen := BitVec.ofNat 7 cs.length, ibuf := ⟨cellsOf (codes cs)⟩ }

/-- After reset, with the tables of R79 built. -/
def tabled : State :=
  { State.reset with
    stat := { State.reset.stat with ready := true }
    log := (builtTables 0x43 State.reset.log State.reset.alog).1
    alog := (builtTables 0x43 State.reset.log State.reset.alog).2 }

/-- The digits of framed string V-E1. -/
def framedE1 : List Byte :=
  [1, 3, 0, 1, 0, 1, 0, 0, 0, 0, 0, 0, 0, 0, 0, 0, 0, 0, 0, 0, 0, 0, 3, 0, 1, 1, 2, 1, 2, 1, 0, 3, 2, 3, 3, 1, 3]

/-- What `f` sees of the next state, where there is one. -/
def view {α : Type} (f : State → α) : Host.Outcome State Fault Refusal → Option α
  | .next t => some (f t)
  | .fault _ => none
  | .refused _ => none

theorem next_of_view {α : Type} {f : State → α} {o : Host.Outcome State Fault Refusal} {a : α} (h : view f o = some a) :
    ∃ t, o = .next t ∧ f t = a := by
  cases o with
  | next t => exact ⟨t, rfl, by simpa [view] using h⟩
  | fault _ => cases h
  | refused _ => cases h

/-- The registers a command ends with. -/
def regs (t : State) : Nat × Nat × Bool × List Sym := (t.res.toNat, t.stat.err.toNat, t.stat.ready, t.acc.toList)

/-- The outcome of ENCODE: STAT, OLEN, ACC. -/
def outcome (t : State) : Nat × Nat × List Sym := ((statWord t.stat).toNat, t.olen.toNat, t.acc.toList)

/-- State with a register content to keep: RES = 5, an error, ACC = [47, 19, 38, 5]. -/
def marked : State :=
  { State.reset with
    res := 5
    acc := #v[47, 19, 38, 5]
    stat := { State.reset.stat with err := 6 } }

/-! ### One step of each instruction -/

/-- Section 6. -/
theorem test_nop : view regs (exec .nop marked) = some (5, 0, false, [47, 19, 38, 5]) := by decide

/-- Section 2. -/
theorem test_gfinit : view regs (exec .gfinit marked) = some (5, 0, true, [47, 19, 38, 5]) := by decide

/-- Section 2. -/
theorem test_gflog : view regs (exec (.gflog 63) marked) = some (58, 0, true, [47, 19, 38, 5]) := by decide

/-- Section 2. -/
theorem test_gflog_zero : view regs (exec (.gflog 0) marked) = some (0, 0, true, [47, 19, 38, 5]) := by decide

/-- Section 2. -/
theorem test_gfexp : view regs (exec (.gfexp 63) marked) = some (1, 0, true, [47, 19, 38, 5]) := by decide +kernel

/-- Section 2. -/
theorem test_gfexp_last : view regs (exec (.gfexp 62) marked) = some (33, 0, true, [47, 19, 38, 5]) := by decide +kernel

/-- Section 2: a product that is reduced. -/
theorem test_gfmul : view regs (exec (.gfmul 2 32) marked) = some (3, 0, true, [47, 19, 38, 5]) := by decide

/-- Section 2: a sum of logarithms that wraps. -/
theorem test_gfmul_wraps : view regs (exec (.gfmul 63 63) marked) = some (42, 0, true, [47, 19, 38, 5]) := by decide

/-- Section 3. -/
theorem test_pclr : view regs (exec .pclr marked) = some (5, 0, false, [0, 0, 0, 0]) := by decide

/-- Section 3: the coefficient order. -/
theorem test_pfeed : view regs (exec (.pfeed 1) State.reset) = some (0, 0, true, [48, 17, 29, 30]) := by decide

/-- Section 3: m = 0 is a pure shift. -/
theorem test_pfeed_shift : view regs (exec (.pfeed 5) marked) = some (5, 0, true, [0, 47, 19, 38]) := by decide

/-- Section 3. -/
theorem test_pread : view regs (exec (.pread 0) marked) = some (5, 0, false, [47, 19, 38, 5]) := by decide

/-- Section 3. -/
theorem test_pread_last : view regs (exec (.pread 3) marked) = some (47, 0, false, [47, 19, 38, 5]) := by decide

/-- Section 4. -/
theorem test_clookup : view regs (exec (.clookup 0x7A) marked) = some (61, 0, false, [47, 19, 38, 5]) := by decide

/-- Section 4. -/
theorem test_clookup_none : view regs (exec (.clookup 0x7E) State.reset) = some (0, 6, false, [0, 0, 0, 0]) := by decide

/-- Section 4. -/
theorem test_nenc : view regs (exec (.nenc 0x33) marked) = some (4, 0, false, [47, 19, 38, 5]) := by decide

/-- Section 4. -/
theorem test_nenc_letter : view regs (exec (.nenc 0x41) State.reset) = some (0, 6, false, [0, 0, 0, 0]) := by decide

/-- Section 4. -/
theorem test_cenc : view regs (exec (.cenc 0x61) marked) = some (11, 0, false, [47, 19, 38, 5]) := by decide

/-- Section 4. -/
theorem test_cenc_none : view regs (exec (.cenc 0x7E) State.reset) = some (0, 6, false, [0, 0, 0, 0]) := by decide

/-- Section 5. -/
theorem test_barexp : view regs (exec (.barexp 27) marked) = some (27, 0, false, [47, 19, 38, 5]) := by decide

/-- Section 5. -/
theorem test_pack : view regs (exec (.pack 1 2 3) marked) = some (27, 0, false, [47, 19, 38, 5]) := by decide

/-- Section 6. -/
theorem test_barshape : view regs (exec (.barshape 3) marked) = some (0x233, 0, false, [47, 19, 38, 5]) := by decide

/-- Section 6: GFINIT with a reserved bit builds no tables. -/
theorem test_illegal : view regs (exec (decode 0x1001) marked) = some (5, 8, false, [47, 19, 38, 5]) := by decide

/-- The input of V-E1. -/
def e1 : List Char := ['1', '1', '0', '0', '0', '0', '0', '0', '0', '0']

/-- V-E1. -/
theorem test_encode_e1 : view outcome (exec .encode (loaded e1)) = some (0xD0, 37, [47, 19, 38, 5]) := by decide

/-- V-E1: the digits, in order. -/
theorem test_encode_e1_digits : view (fun t => t.obuf.cells) (exec .encode (loaded e1)) = some (cellsOf framedE1) := by decide

/-! ### The invariant holds of the states used below -/

theorem cellsRead_mem {l : List Host.Cell} {i : Nat} {b : Byte} (h : cellsRead l i = some b) : (i, b) ∈ l := by
  induction l with
  | nil => cases h
  | cons c rest ih =>
    obtain ⟨k, d⟩ := c
    by_cases hk : k = i
    · simp only [cellsRead, hk, if_true, Option.some.injEq] at h
      simp [hk, h]
    · simp only [cellsRead, hk, if_false] at h
      exact List.mem_cons_of_mem _ (ih h)

/-- The invariant of a state with no valid output. -/
theorem inv_without_output {s : State} (ha : admits s.cfg = true) (hi : s.ibuf.wf = true) (ho : s.obuf.wf = true)
    (hiw : s.ibuf.cells.all (fun c => decide (c.1 < 64)) = true)
    (how : s.obuf.cells.all (fun c => decide (c.1 < s.cfg.obufSize) && decide (c.2.toNat < 4)) = true)
    (he : s.stat.err.toNat ≤ 9) (hr : s.stat.ready = true → TablesBuilt s.cfg.gfPoly s.log s.alog)
    (hv : s.stat.valid = false) (hl : s.olen = 0) (hb : s.stat.btype = 0) : s.Inv where
  admitted := ha
  ibuf_wf := hi
  obuf_wf := ho
  ibuf_window i h := by
    cases hc : s.ibuf.read? i with
    | none => rfl
    | some b =>
      have := List.all_eq_true.1 hiw _ (cellsRead_mem hc)
      simp only [decide_eq_true_eq] at this
      omega
  obuf_size i h := by
    cases hc : s.obuf.read? i with
    | none => rfl
    | some b =>
      have := List.all_eq_true.1 how _ (cellsRead_mem hc)
      simp only [Bool.and_eq_true, decide_eq_true_eq] at this
      omega
  obuf_digit i b h := by
    have := List.all_eq_true.1 how _ (cellsRead_mem h)
    simp only [Bool.and_eq_true, decide_eq_true_eq] at this
    exact this.2
  err_legal := he
  ready_tables := hr
  invalid_output _ := ⟨hl, hb⟩
  valid_output h := by rw [hv] at h; cases h

/-- The tables of R79 are built tables. -/
theorem tabled_built : TablesBuilt tabled.cfg.gfPoly tabled.log tabled.alog where
  alog_pow := by decide +kernel
  log_pow := by decide +kernel
  log_zero := by decide

theorem inv_tabled : tabled.Inv :=
  inv_without_output (by decide) rfl rfl rfl rfl (by decide) (fun _ => tabled_built) rfl rfl rfl

theorem inv_marked : marked.Inv :=
  inv_without_output (by decide) rfl rfl rfl rfl (by decide) (fun h => nomatch h) rfl rfl rfl

theorem inv_loaded (cs : List Char) (hi : (loaded cs).ibuf.wf = true)
    (hw : (loaded cs).ibuf.cells.all (fun c => decide (c.1 < 64)) = true) : (loaded cs).Inv :=
  inv_without_output (by decide : admits defaultCfg = true) hi rfl hw rfl (by decide : (0 : Nat) ≤ 9)
    (fun h => absurd (show false = true from h) (by decide)) rfl rfl rfl

/-- A state with the valid output V-E1. -/
def framedState : State :=
  { tabled with
    stat := { err := 0, btype := 1, valid := true, ready := true }
    olen := 37
    obuf := ⟨cellsOf framedE1⟩ }

theorem inv_framed : framedState.Inv where
  admitted := by decide
  ibuf_wf := rfl
  obuf_wf := by decide
  ibuf_window _ _ := rfl
  obuf_size i h := by
    cases hc : framedState.obuf.read? i with
    | none => rfl
    | some b =>
      have hall : framedState.obuf.cells.all (fun c => decide (c.1 < framedState.cfg.obufSize)) = true := by decide
      have := List.all_eq_true.1 hall _ (cellsRead_mem hc)
      simp only [decide_eq_true_eq] at this
      omega
  obuf_digit i b h := by
    have hall : framedState.obuf.cells.all (fun c => decide (c.2.toNat < 4)) = true := by decide
    simpa using List.all_eq_true.1 hall _ (cellsRead_mem h)
  err_legal := by decide
  ready_tables _ := tabled_built
  invalid_output h := by cases h
  valid_output _ := ⟨.standard, rfl, by decide, by decide, by decide, by decide, by decide, by decide⟩

/-! ### Witnesses: encoding -/

theorem witness_EncodedCommandDecodes : (Instr.gfmul 63 63).wf = true ∧ (Instr.illegal 0xF000).wf = true := by decide

/-- Match and mask of the rows of R63. -/
def rows : List (Word × Word) :=
  [(0x0000, 0xFFFF), (0x1000, 0xFFFF), (0x2000, 0xFFC0), (0x3000, 0xFFC0), (0x4000, 0xF000), (0x5000, 0xFFFF), (0x6000, 0xFFC0), (0x7000, 0xFFFC),
    (0x8000, 0xFF00), (0x9000, 0xFF00), (0xA000, 0xFF00), (0xB000, 0xFFC0), (0xC000, 0xFCCC), (0xD000, 0xFFFC), (0xE000, 0xFFFF)]

theorem witness_ReservedBitsAreIllegal :
    (0xC000, 0xFCCC) ∈ rows ∧ (0xE000, 0xFFFF) ∈ rows ∧
    (0xC004 : Word) &&& 0xF000 = 0xC000 ∧ (0xC004 : Word) &&& 0xFCCC ≠ 0xC000 ∧
    (0xE001 : Word) &&& 0xF000 = 0xE000 ∧ (0xE001 : Word) &&& 0xFFFF ≠ 0xE000 := by decide

theorem witness_OpcodeFIsIllegal : (0xF000 : Word) &&& 0xF000 = 0xF000 ∧ (0xFFFF : Word) &&& 0xF000 = 0xF000 := by decide

theorem witness_MatchingWordsAreLegal :
    (0xC000, 0xFCCC) ∈ rows ∧ (0x2000, 0xFFC0) ∈ rows ∧ (0xC333 : Word) &&& 0xFCCC = 0xC000 ∧ (0x203F : Word) &&& 0xFFC0 = 0x2000 := by decide

/-! ### Witnesses: GFE, PLFSR, FCODEC -/

theorem witness_GfinitResult : admits marked.cfg = true := by decide

theorem witness_DefaultTables : marked.cfg.gfPoly = 0x43 := by decide

theorem witness_GflogResult : marked.Inv ∧ (0 : Sym) = 0 ∧ (63 : Sym) ≠ 0 := ⟨inv_marked, rfl, by decide⟩

theorem witness_GfexpResult : tabled.Inv ∧ marked.Inv := ⟨inv_tabled, inv_marked⟩

theorem witness_GfmulResult : tabled.Inv ∧ marked.Inv := ⟨inv_tabled, inv_marked⟩

/-- For the clause on zero products, the product 0 · 45 is 0. -/
theorem witness_GfMulLaws :
    tabled.Inv ∧ tabled.stat.ready = true ∧ gfMul tabled.log tabled.alog 0 45 = 0 ∧ (45 : Sym) ≠ 0 :=
  ⟨inv_tabled, rfl, rfl, by decide⟩

theorem witness_PfeedResult : tabled.Inv ∧ marked.Inv := ⟨inv_tabled, inv_marked⟩

theorem witness_ParityIsRemainder : tabled.Inv ∧ tabled.stat.ready = true := ⟨inv_tabled, rfl⟩

theorem witness_CharIndexIsAlphabetPosition :
    (0x30 ≤ (0x39 : Byte).toNat ∧ 0x41 ≤ (0x5A : Byte).toNat ∧ 0x61 ≤ (0x7A : Byte).toNat) ∧
    charIndex 0x30 = some 0 ∧ charIndex 0x23 = some 63 ∧ alphabet[63]? = some 0x23 ∧ (0x7E : Byte) ∉ alphabet := by decide

theorem witness_ClookupResult :
    alphabet[0]? = some 0x30 ∧ alphabet[63]? = some 0x23 ∧ (0x7E : Byte) ∉ alphabet := by decide

theorem witness_NencResult :
    (DigitByte 0x30 ∧ marked.cfg.nTable[(0x30 : Byte).toNat - 0x30]? = some ⟨0, 0⟩) ∧
    (DigitByte 0x39 ∧ marked.cfg.nTable[(0x39 : Byte).toNat - 0x30]? = some ⟨3, 0⟩) ∧
    ¬ DigitByte 0x2F ∧ ¬ DigitByte 0x3A := by decide

theorem witness_CencResult :
    (alphabet[0]? = some 0x30 ∧ marked.cfg.cTable[0]? = some ⟨2, 2, 2⟩) ∧
    (alphabet[63]? = some 0x23 ∧ marked.cfg.cTable[63]? = some ⟨0, 1, 3⟩) ∧ (0x7E : Byte) ∉ alphabet := by decide

theorem witness_DefaultCTableIsPermutation : tableGet defaultCfg.cTable 63 = ⟨0, 1, 3⟩ := by decide

/-! ### Witnesses: SASM and BMAP -/

theorem witness_Pack3IsBijection : pack3 ⟨1, 2, 3⟩ = pack3 ⟨1, 2, 3⟩ := rfl

theorem witness_BarexpResult :
    marked.cfg.barTable[(63 : Sym).toNat]? = some ⟨3, 3, 3⟩ ∧ marked.cfg.barTable = defaultCfg.barTable := by decide

theorem witness_BarshapeResult : (0 : Digit) = 0 ∧ (3 : Digit) = 3 := ⟨rfl, rfl⟩

/-! ### Witnesses: ENCODE -/

/-- The input of V-E5 (and B3): the longest numeric customer field of a Type59. -/
def e5 : List Char := ['5', '9', '1', '2', '3', '4', '5', '6', '7', '8', '1', '2', '3', '4', '5', '6', '7', '8']

/-- The input of V-E12: a customer field of the longest alphanumeric length of a Type59. -/
def e12 : List Char := ['5', '9', '1', '2', '3', '4', '5', '6', '7', '8', 'A', 'B', 'C', 'D', 'e']

theorem inputIs_loaded {cs : List Char} (h : (codes cs).length = (loaded cs).ilen.toNat)
    (hi : ∀ i : Fin (codes cs).length, (loaded cs).ibuf.read? i = some (codes cs)[i]) : InputIs (loaded cs) (codes cs) :=
  ⟨h, fun i hl => hi ⟨i, hl⟩⟩

theorem inputIs_e1 : InputIs (loaded e1) (codes e1) := inputIs_loaded (by decide) (by decide)

theorem inputFor_e1 : InputFor defaultCfg .standard (codes e1) where
  long := by decide
  digits := by decide
  fcc := by decide
  customer := .inr (by decide)

theorem inputFor_e5 : InputFor defaultCfg .type59 (codes e5) where
  long := by decide
  digits := by decide
  fcc := by decide
  customer := .inl (by decide)

theorem inputFor_e12 : InputFor defaultCfg .type59 (codes e12) where
  long := by decide
  digits := by decide
  fcc := by decide
  customer := .inr (by decide)

/-- An input with no customer field, one with a numeric and one with an alphanumeric one, each of the greatest length. -/
theorem witness_EncodeSucceeds :
    ((loaded e1).Inv ∧ InputIs (loaded e1) (codes e1) ∧ (codes e1).length ≤ (loaded e1).cfg.ibufSize ∧
      InputFor (loaded e1).cfg .standard (codes e1) ∧
      bodyLength (rowFor (loaded e1).cfg.typeTable .standard) % 3 = 0) ∧
    ((loaded e5).Inv ∧ InputIs (loaded e5) (codes e5) ∧ (codes e5).length ≤ (loaded e5).cfg.ibufSize ∧
      InputFor (loaded e5).cfg .type59 (codes e5) ∧ bodyLength (rowFor (loaded e5).cfg.typeTable .type59) % 3 = 0) ∧
    ((loaded e12).Inv ∧ InputIs (loaded e12) (codes e12) ∧ (codes e12).length ≤ (loaded e12).cfg.ibufSize ∧
      InputFor (loaded e12).cfg .type59 (codes e12) ∧ bodyLength (rowFor (loaded e12).cfg.typeTable .type59) % 3 = 0) :=
  ⟨⟨inv_loaded _ rfl rfl, inputIs_e1, by decide, inputFor_e1, by decide⟩,
   ⟨inv_loaded _ rfl rfl, inputIs_loaded (by decide) (by decide), by decide, inputFor_e5, by decide⟩,
   ⟨inv_loaded _ rfl rfl, inputIs_loaded (by decide) (by decide), by decide, inputFor_e12, by decide⟩⟩

/-- ILEN at the first value above IBUF_SIZE and at the greatest (X13). -/
theorem witness_EncodeBufRange :
    State.reset.cfg.ibufSize < ({ State.reset with ilen := 65 } : State).ilen.toNat ∧
    State.reset.cfg.ibufSize < ({ State.reset with ilen := 127 } : State).ilen.toNat := by decide

/-- The premises that all clauses of EncodeErrorPriority share. -/
def Presented (s : State) (str : List Byte) : Prop :=
  admits s.cfg = true ∧ InputIs s str ∧ str.length ≤ s.cfg.ibufSize

theorem presented_loaded {cs : List Char} (h : (codes cs).length = (loaded cs).ilen.toNat)
    (hi : ∀ i : Fin (codes cs).length, (loaded cs).ibuf.read? i = some (codes cs)[i])
    (hl : (codes cs).length ≤ defaultCfg.ibufSize) : Presented (loaded cs) (codes cs) :=
  ⟨(by decide : admits defaultCfg = true), inputIs_loaded h hi, hl⟩

/-- As X2, nine characters: error 1. -/
theorem witness_EncodeErrorPriority_too_short :
    Presented (loaded (e1.take 9)) (codes (e1.take 9)) ∧ (codes (e1.take 9)).length < 10 :=
  ⟨presented_loaded (by decide) (by decide) (by decide), by decide⟩

/-- X3 and X6: error 2. -/
def x3 : List Char := ['1', 'A', '1', '2', '3', '-', '5', '6', '7', '8']

theorem witness_EncodeErrorPriority_fcc :
    Presented (loaded x3) (codes x3) ∧ 10 ≤ (codes x3).length ∧
    ¬ (DigitByte ((codes x3).getD 0 0) ∧ DigitByte ((codes x3).getD 1 0)) :=
  ⟨presented_loaded (by decide) (by decide) (by decide), by decide, by decide⟩

/-- As X5, with the first and the last character of the DPID no digits: error 3. -/
def x5 : List Char := ['1', '1', '/', '2', '3', '4', '5', '6', '7', ':']

theorem witness_EncodeErrorPriority_dpid :
    Presented (loaded x5) (codes x5) ∧ 10 ≤ (codes x5).length ∧ (∀ i, i < 2 → DigitByte ((codes x5).getD i 0)) ∧
    (∃ i, 2 ≤ i ∧ i < 10 ∧ ¬ DigitByte ((codes x5).getD i 0)) :=
  ⟨presented_loaded (by decide) (by decide) (by decide), by decide, by decide, 9, by decide⟩

/-- X7: error 4. -/
def x7 : List Char := ['9', '9', '1', '2', '3', '4', '5', '6', '7', '8']

theorem witness_EncodeErrorPriority_type :
    Presented (loaded x7) (codes x7) ∧ 10 ≤ (codes x7).length ∧ (∀ i, i < 10 → DigitByte ((codes x7).getD i 0)) ∧
    (∀ ty, (rowFor defaultCfg.typeTable ty).fcc ≠
      10 * (((codes x7).getD 0 0).toNat - 0x30) + (((codes x7).getD 1 0).toNat - 0x30)) :=
  ⟨presented_loaded (by decide) (by decide) (by decide), by decide, by decide, by intro ty; cases ty <;> decide⟩

/-- B4 and B6: error 5, one digit and one character too many. -/
theorem witness_EncodeErrorPriority_length :
    (Presented (loaded (e5 ++ ['9'])) (codes (e5 ++ ['9'])) ∧ 10 ≤ (codes (e5 ++ ['9'])).length ∧
      (∀ i, i < 10 → DigitByte ((codes (e5 ++ ['9'])).getD i 0)) ∧
      (∀ c ∈ (codes (e5 ++ ['9'])).drop 10, DigitByte c) ∧
      (rowFor defaultCfg.typeTable .type59).maxDigits < (codes (e5 ++ ['9'])).length - 10) ∧
    (Presented (loaded (e12 ++ ['F'])) (codes (e12 ++ ['F'])) ∧
      (∀ i, i < 10 → DigitByte ((codes (e12 ++ ['F'])).getD i 0)) ∧
      (∃ c ∈ (codes (e12 ++ ['F'])).drop 10, ¬ DigitByte c) ∧
      (rowFor defaultCfg.typeTable .type59).maxChars < (codes (e12 ++ ['F'])).length - 10) :=
  ⟨⟨presented_loaded (by decide) (by decide) (by decide), by decide, by decide, by decide, by decide⟩,
   ⟨presented_loaded (by decide) (by decide) (by decide), by decide, by decide, by decide⟩⟩

/-- As X9, at the greatest length: error 6. -/
def x9 : List Char := ['5', '9', '1', '2', '3', '4', '5', '6', '7', '8', 'A', 'B', 'C', 'D', '~']

theorem witness_EncodeErrorPriority_alphabet :
    Presented (loaded x9) (codes x9) ∧ 10 ≤ (codes x9).length ∧ (∀ i, i < 10 → DigitByte ((codes x9).getD i 0)) ∧
    (codes x9).length - 10 ≤ (rowFor defaultCfg.typeTable .type59).maxChars ∧
    (∃ c ∈ (codes x9).drop 10, c ∉ alphabet) :=
  ⟨presented_loaded (by decide) (by decide) (by decide), by decide, by decide, by decide, by decide⟩

/-- The configuration of X15: no filler digit on a Standard barcode. -/
def cfgX15 : Cfg :=
  { defaultCfg with
    typeTable := { defaultCfg.typeTable with standard := { defaultCfg.typeTable.standard with fillers := 0 } } }

/-- X15: error 7. -/
theorem witness_EncodeErrorPriority_internal :
    Presented { loaded e1 with cfg := cfgX15 } (codes e1) ∧ InputFor cfgX15 .standard (codes e1) ∧
    bodyLength (rowFor cfgX15.typeTable .standard) % 3 ≠ 0 :=
  ⟨⟨by decide, inputIs_e1, by decide⟩, ⟨by decide, by decide, by decide, .inr (by decide)⟩, by decide⟩

/-- X15. -/
theorem test_encode_x15 : view outcome (exec .encode { loaded e1 with cfg := cfgX15 }) = some (0x87, 0, [0, 0, 0, 0]) := by
  decide

/-- Entry 2 of three is not written. -/
theorem witness_EncodeUnwrittenFaults :
    ({ loaded (e1.take 2) with ilen := 3 } : State).ilen.toNat ≤ (loaded (e1.take 2)).cfg.ibufSize ∧
    2 < ({ loaded (e1.take 2) with ilen := 3 } : State).ilen.toNat ∧ (loaded (e1.take 2)).ibuf.read? 2 = none ∧
    ∀ k, k < 2 → ((loaded (e1.take 2)).ibuf.read? k).isSome = true := by decide

/-- A valid and an invalid outcome: V-E1, and the failing x7. -/
theorem witness_EncodeAllOrNothing :
    ((loaded e1).Inv ∧ ∃ t, exec .encode (loaded e1) = .next t ∧ outcome t = (0xD0, 37, [47, 19, 38, 5])) ∧
    ((loaded x7).Inv ∧ ∃ t, exec .encode (loaded x7) = .next t ∧ outcome t = (0x84, 0, [0, 0, 0, 0])) :=
  ⟨⟨inv_loaded _ rfl rfl, next_of_view (by decide)⟩, ⟨inv_loaded _ rfl rfl, next_of_view (by decide)⟩⟩

theorem witness_EncodeParityReadable :
    (loaded e1).Inv ∧ ∃ t, exec .encode (loaded e1) = .next t ∧ t.stat.valid = true :=
  ⟨inv_loaded _ rfl rfl, next_of_view (f := fun t => t.stat.valid) (by decide)⟩

theorem witness_DefaultFramedLengths :
    (loaded e1).Inv ∧ (loaded e1).cfg.typeTable = defaultCfg.typeTable ∧
    ∃ t, exec .encode (loaded e1) = .next t ∧ t.stat.valid = true :=
  ⟨inv_loaded _ rfl rfl, rfl, next_of_view (f := fun t => t.stat.valid) (by decide)⟩

/-- Old state that differs: RES, ACC, an error code, a stale digit of OBUF and a stale byte of IBUF. -/
def stale : State :=
  { loaded e1 with
    res := 5
    acc := #v[47, 19, 38, 5]
    stat := { State.reset.stat with err := 6 }
    ibuf := ⟨cellsOf (codes (e1 ++ ['A']))⟩
    obuf := ⟨[(66, 3)]⟩ }

theorem inv_stale : stale.Inv :=
  inv_without_output (by decide) rfl rfl rfl rfl (by decide) (fun h => nomatch h) rfl rfl rfl

theorem witness_EncodeIgnoresOldState :
    (loaded e1).Inv ∧ stale.Inv ∧ stale.cfg = (loaded e1).cfg ∧ stale.ilen = (loaded e1).ilen ∧
    (∀ i, i < (loaded e1).ilen.toNat → stale.ibuf.read? i = (loaded e1).ibuf.read? i) ∧
    ∃ t, exec .encode (loaded e1) = .next t ∧ t.stat.valid = true :=
  ⟨inv_loaded _ rfl rfl, inv_stale, rfl, rfl, by decide, next_of_view (f := fun t => t.stat.valid) (by decide)⟩

/-! ### Witnesses: whole-machine rules -/

theorem witness_OtherCommandsComplete : Instr.nop ≠ .encode := by decide

theorem witness_CommandsKeepInput : ∃ t, exec .encode (loaded e1) = .next t ∧ outcome t = (0xD0, 37, [47, 19, 38, 5]) :=
  next_of_view (by decide)

theorem witness_OnlyEncodeWritesOutput :
    Instr.pfeed 1 ≠ .encode ∧ ∃ t, exec (.pfeed 1) framedState = .next t ∧ t.acc.toList = [48, 17, 29, 30] :=
  ⟨by decide, next_of_view (f := fun t => t.acc.toList) (by decide)⟩

/-- A command that is none of the writers, and an ENCODE that fails. -/
theorem witness_AccWriters :
    (Instr.pread 0 ≠ .pclr ∧ (∀ a, Instr.pread 0 ≠ .pfeed a) ∧ Instr.pread 0 ≠ .encode ∧
      ∃ t, exec (.pread 0) marked = .next t ∧ t.res = 5) ∧
    (Instr.encode ≠ .pclr ∧ (∀ a, Instr.encode ≠ .pfeed a) ∧
      ∃ t, exec .encode (loaded x7) = .next t ∧ t.stat.err = 4) :=
  ⟨⟨by decide, by simp, by decide, next_of_view (f := fun t => t.res) (by decide)⟩,
   ⟨by decide, by simp, next_of_view (f := fun t => t.stat.err) (by decide)⟩⟩

/-- A command that writes no result, and one that fails. -/
theorem witness_ResKept :
    (∃ t, exec (.pfeed 5) marked = .next t ∧ t.acc.toList = [0, 47, 19, 38]) ∧
    (∃ t, exec (.cenc 0x7E) marked = .next t ∧ t.stat.err = 6) ∧ (6 : BitVec 4) ≠ 0 :=
  ⟨next_of_view (f := fun t => t.acc.toList) (by decide), next_of_view (f := fun t => t.stat.err) (by decide), by decide⟩

/-- A command that builds the tables and one that does not. -/
theorem witness_TableWriters :
    marked.Inv ∧ (∃ t, exec (.gflog 63) marked = .next t ∧ t.stat.ready = true) ∧
    (∃ t, exec (.pread 0) marked = .next t ∧ t.stat.ready = false) ∧
    (Instr.pread 0 ≠ .gfinit ∧ (∀ a, Instr.pread 0 ≠ .gflog a) ∧ (∀ a, Instr.pread 0 ≠ .gfexp a) ∧
      (∀ a b, Instr.pread 0 ≠ .gfmul a b) ∧ (∀ a, Instr.pread 0 ≠ .pfeed a) ∧ Instr.pread 0 ≠ .encode) :=
  ⟨inv_marked, next_of_view (f := fun t => t.stat.ready) (by decide),
   next_of_view (f := fun t => t.stat.ready) (by decide), by simp⟩

theorem witness_ErrorCodesByCommand : ∃ t, exec .encode (loaded x7) = .next t ∧ t.stat.err = 4 :=
  next_of_view (f := fun t => t.stat.err) (by decide)

/-- A failing command over built tables, one over tables not yet built, and a failing ENCODE over built tables. -/
theorem witness_FailuresArePrecise :
    (∃ t, exec (.clookup 0x7E) tabled = .next t ∧ t.stat.err = 6) ∧ tabled.stat.ready = true ∧
    (∃ t, exec (.illegal 0xFFFF) marked = .next t ∧ t.stat.err = 8) ∧
    (∃ t, exec .encode tabled = .next t ∧ t.stat.err = 1) ∧ Instr.clookup 0x7E ≠ .encode :=
  ⟨next_of_view (f := fun t => t.stat.err) (by decide), rfl, next_of_view (f := fun t => t.stat.err) (by decide),
   next_of_view (f := fun t => t.stat.err) (by decide), by decide⟩

theorem witness_FirstUseIsInvisible :
    (loaded e1).Inv ∧ ∃ t, exec .encode (loaded e1) = .next t ∧ t.stat.valid = true :=
  ⟨inv_loaded _ rfl rfl, next_of_view (f := fun t => t.stat.valid) (by decide)⟩

/-! ### Witnesses: the host bus and the step -/

/-- A state with host operations waiting. -/
def waiting (ops : List HostOp) : State := { stale with pending := ops }

theorem inv_waiting (ops : List HostOp) : (waiting ops).Inv :=
  inv_without_output (by decide : admits defaultCfg = true) rfl rfl rfl rfl (by decide : (6 : Nat) ≤ 9)
    (fun h => absurd (show false = true from h) (by decide)) rfl rfl rfl

theorem witness_StepRunsDecodedCommand :
    admits (waiting [.write 0x00 0xE000]).cfg = true ∧
    (waiting [.write 0x00 0xE000]).pending = .write 0x00 0xE000 :: [] ∧ 65535 < 65536 := by decide

/-- From reset, with no program placed, the command's word runs as the first instruction (P1). -/
theorem test_first_command : view regs (step (State.reset.withFetchWord 16 0x2005)) = some (12, 0, true, [0, 0, 0, 0]) := by
  decide

theorem witness_IdleStepHoldsState : admits (waiting []).cfg = true ∧ (waiting []).pending = [] := by decide

theorem witness_IllFormedConfigRefused :
    admits ({ State.reset with cfg := { defaultCfg with ibufSize := 9 } } : State).cfg = false := by decide

theorem witness_ResetValues : admits (waiting [.reset]).cfg = true ∧ (waiting [.reset]).pending = .reset :: [] := by decide

/-- For each clause an address at each end of its range, and for the buffers an entry that is written and one that is not. -/
theorem witness_HostReadReturns :
    (∀ a : Addr, (waiting [.read a]).Inv ∧ (waiting [.read a]).pending = .read a :: []) ∧
    ((0x05 : Addr).toNat = 0x05 ∧ (0x3F : Addr).toNat = 0x3F ∧ (0xC3 : Addr).toNat = 0xC3 ∧ (0xFF : Addr).toNat = 0xFF) ∧
    ((0x40 : Addr).toNat = 0x40 + 0 ∧ (waiting [.read 0x40]).ibuf.read? 0 = some 0x31) ∧
    ((0x7F : Addr).toNat = 0x40 + 63 ∧ (waiting [.read 0x7F]).ibuf.read? 63 = none) ∧
    ((0x80 : Addr).toNat = 0x80 + 0 ∧ (waiting [.read 0x80]).obuf.read? 0 = none) ∧
    ((0xC2 : Addr).toNat = 0x80 + 66 ∧ (waiting [.read 0xC2]).obuf.read? 66 = some 3) :=
  ⟨fun a => ⟨inv_waiting _, rfl⟩, by decide, by decide, by decide, by decide, by decide⟩

/-- For each clause an address at each end of its range. -/
theorem witness_HostWriteStores :
    (∀ (a : Addr) (v : Word), (waiting [.write a v]).Inv ∧ (waiting [.write a v]).pending = .write a v :: []) ∧
    ((0x03 : Addr).toNat = 0x03 ∧ (0x40 : Addr).toNat = 0x40 + 0 ∧ (0x7F : Addr).toNat = 0x40 + 63) ∧
    ((0x01 : Addr).toNat = 0x01 ∧ (0x02 : Addr).toNat = 0x02 ∧ (0x04 : Addr).toNat = 0x04 ∧
      (0x05 : Addr).toNat = 0x05 ∧ (0x3F : Addr).toNat = 0x3F ∧ (0x80 : Addr).toNat = 0x80 ∧ (0xFF : Addr).toNat = 0xFF) :=
  ⟨fun a v => ⟨inv_waiting _, rfl⟩, by decide, by decide⟩

/-- R24: a write of 130 to ILEN stores 2 (X14). -/
theorem test_write_ilen : view (fun t => t.ilen.toNat) (step (waiting [.write 0x03 130])) = some 2 := by decide

/-- P3: a read of STAT. -/
theorem test_read_stat : view (fun t => t.reads) (step (waiting [.read 0x02])) = some [0x0006] := by decide

theorem witness_IbufReadsBack :
    ∀ a ∈ [(0x40 : Addr), 0x7F], (waiting [.write a 0x141, .read a]).Inv ∧ 0x40 ≤ a.toNat ∧ a.toNat ≤ 0x7F ∧
      (waiting [.write a 0x141, .read a]).pending = .write a 0x141 :: .read a :: [] :=
  fun a h => ⟨inv_waiting _, by revert a; decide⟩

theorem witness_StepKeepsConfig : ∃ t, step (waiting [.write 0x03 130]) = .next t ∧ t.ilen = 2 :=
  next_of_view (f := fun t => t.ilen) (by decide)

/-- The empty string and the longest one. -/
theorem witness_LoadstrFillsInput :
    stale.Inv ∧ ([] : List Byte).length ≤ 64 ∧ (List.replicate 64 (0x30 : Byte)).length ≤ 64 :=
  ⟨inv_stale, by decide, by decide⟩

/-- The invariant of a state with valid output too. -/
theorem witness_StepKeepsInvariant :
    (framedState.Inv ∧ ∃ t, step framedState = .next t ∧ t.olen = 37) ∧
    ((waiting [.write 0x00 0xE000]).Inv ∧ ∃ t, step (waiting [.write 0x00 0xE000]) = .next t ∧ t.olen = 37) :=
  ⟨⟨inv_framed, next_of_view (f := fun t => t.olen) (by decide)⟩,
   ⟨inv_waiting _, next_of_view (f := fun t => t.olen) (by decide)⟩⟩

end Sys2Proof.Tests
end

section
/-! ### The table generator builds the tables of R78

The generator's working value runs through the powers of α. Doubling has period 63 on α^0 = 1, so the 63 powers the generator
writes LOG entries for are distinct, and no entry is written twice. -/

namespace Sys2Proof.Machine

open Function (IsPeriodicPt minimalPeriod)

@[simp] theorem tableGet_tablePut_same {α : Type} (t : Vector α 64) (i : Sym) (v : α) :
    tableGet (tablePut t i v) i = v := by
  simp [tableGet, tablePut]

theorem tableGet_tablePut_other {α : Type} (t : Vector α 64) {i j : Sym} (v : α) (h : i ≠ j) :
    tableGet (tablePut t i v) j = tableGet t j := by
  have hne : i.toNat ≠ j.toNat := fun he => h (BitVec.eq_of_toNat_eq he)
  simp [tableGet, tablePut, Vector.getElem_set_ne, hne]

/-- An admitted polynomial has degree 6 (R8 (a)). -/
theorem primitivePolys_degree : ∀ poly ∈ primitivePolys, poly.getLsbD 6 = true := by decide

/-- The generator's doubling, by the bit of the element that comes up (R77). -/
theorem gfDouble_setWidth (poly : BitVec 7) (a : Sym) :
    gfDouble poly (a.setWidth 7) = if a[5] then a.setWidth 7 <<< 1 ^^^ poly else a.setWidth 7 <<< 1 := by
  simp [gfDouble]

/-- The product with α needs one step of the reduction at most (R75). -/
theorem fieldMul_two (poly : BitVec 7) (a : Sym) :
    fieldMul poly a 2 =
      (if a[5] then a.setWidth 11 <<< 1 ^^^ poly.setWidth 11 else a.setWidth 11 <<< 1).setWidth 6 := by
  simp [fieldMul, polyReduce, carrylessMul, List.range_succ]

/-- One multiplication by α is one doubling of the generator (R75, R77): the two agree below bit 6 for any polynomial, and the
polynomial's own bit 6 clears the doubling's. -/
theorem gfDouble_eq_fieldMul {poly : BitVec 7} (h : poly ∈ primitivePolys) (a : Sym) :
    gfDouble poly (a.setWidth 7) = (fieldMul poly a 2).setWidth 7 := by
  have hdegree : poly[6] = true := primitivePolys_degree poly h
  rw [gfDouble_setWidth, fieldMul_two]
  ext i hi
  rcases Nat.lt_succ_iff_lt_or_eq.1 hi with hlt | rfl
  · have hpred : i - 1 < 6 := by omega
    split <;> simp [hlt, hpred, BitVec.getLsbD_eq_getElem hi]
  · split
    · next ha => simp [ha, hdegree]
    · next ha => simp [ha]

theorem alphaPow_eq_iterate (poly : BitVec 7) (n : Nat) : alphaPow poly n = (fun a => fieldMul poly a 2)^[n] 1 := by
  induction n with
  | zero => rfl
  | succ n ih => rw [Function.iterate_succ_apply', ← ih, alphaPow]

/-- The order of α divides 63 and none of 63/7 and 63/3 (R8 (a): the polynomial is primitive). -/
theorem alphaPow_order_checks : ∀ poly ∈ primitivePolys,
    alphaPow poly 63 = 1 ∧ alphaPow poly 9 ≠ 1 ∧ alphaPow poly 21 ≠ 1 := by decide +kernel

theorem minimalPeriod_timesAlpha {poly : BitVec 7} (h : poly ∈ primitivePolys) :
    minimalPeriod (fun a => fieldMul poly a 2) 1 = 63 := by
  obtain ⟨h63, h9, h21⟩ := alphaPow_order_checks poly h
  rw [alphaPow_eq_iterate] at h63 h9 h21
  have hdvd : ∀ d ∈ Nat.divisors 63, d ∣ 9 ∨ d ∣ 21 ∨ d = 63 := by decide
  rcases hdvd _ (Nat.mem_divisors.2 ⟨IsPeriodicPt.minimalPeriod_dvd h63, by decide⟩) with hd | hd | hd
  · exact absurd (Function.isPeriodicPt_iff_minimalPeriod_dvd.2 hd) h9
  · exact absurd (Function.isPeriodicPt_iff_minimalPeriod_dvd.2 hd) h21
  · exact hd

/-- The first 63 powers of α are distinct (R78). -/
theorem alphaPow_injective {poly : BitVec 7} (h : poly ∈ primitivePolys) {i j : Nat} (hi : i < 63) (hj : j < 63)
    (he : alphaPow poly i = alphaPow poly j) : i = j := by
  rw [alphaPow_eq_iterate, alphaPow_eq_iterate] at he
  rw [← minimalPeriod_timesAlpha h] at hi hj
  exact Function.iterate_injOn_Iio_minimalPeriod hi hj he

theorem fieldMul_zero_left (poly : BitVec 7) : fieldMul poly 0 2 = 0 := by
  simp [fieldMul, carrylessMul, polyReduce]

/-- A zero power of α would make every later power zero, α^63 = 1 among them. -/
theorem alphaPow_ne_zero {poly : BitVec 7} (h : poly ∈ primitivePolys) {i : Nat} (hi : i ≤ 63) : alphaPow poly i ≠ 0 := by
  intro h0
  have hlater : ∀ k, alphaPow poly (i + k) = 0 := by
    intro k
    induction k with
    | zero => exact h0
    | succ k ih => rw [← Nat.add_assoc, alphaPow, ih, fieldMul_zero_left]
  have h63 := hlater (63 - i)
  rw [Nat.add_sub_cancel' hi, (alphaPow_order_checks poly h).1] at h63
  exact absurd h63 (by decide)

/-- The entries that rounds 0 to n-1 of the generator write stand in the tables (R77). -/
structure TablesUpTo (poly : BitVec 7) (n : Nat) (log alog : Vector Sym 64) : Prop where
  alog_pow : ∀ k, k < n → tableGet alog (BitVec.ofNat 6 k) = alphaPow poly k
  log_pow : ∀ k, k < n → k < 63 → tableGet log (alphaPow poly k) = BitVec.ofNat 6 k

theorem ofNat_six_injective {i j : Nat} (hi : i < 64) (hj : j < 64) (h : BitVec.ofNat 6 i = BitVec.ofNat 6 j) : i = j := by
  have := congrArg BitVec.toNat h
  simpa [Nat.mod_eq_of_lt hi, Nat.mod_eq_of_lt hj] using this

/-- One round writes its own entries and none of an earlier round's. -/
theorem TablesUpTo.round {poly : BitVec 7} (hp : poly ∈ primitivePolys) {i : Nat} (hi : i < 64) {log alog : Vector Sym 64}
    (h : TablesUpTo poly i log alog) :
    TablesUpTo poly (i + 1) (if i < 63 then tablePut log (alphaPow poly i) (BitVec.ofNat 6 i) else log)
      (tablePut alog (BitVec.ofNat 6 i) (alphaPow poly i)) where
  alog_pow k hk := by
    rcases Nat.lt_succ_iff_lt_or_eq.1 hk with hlt | rfl
    · rw [tableGet_tablePut_other _ _ fun he => Nat.ne_of_gt hlt (ofNat_six_injective hi (by omega) he)]
      exact h.alog_pow k hlt
    · exact tableGet_tablePut_same _ _ _
  log_pow k hk h63 := by
    rcases Nat.lt_succ_iff_lt_or_eq.1 hk with hlt | rfl
    · split
      · next hi63 =>
        rw [tableGet_tablePut_other _ _ fun he => Nat.ne_of_gt hlt (alphaPow_injective hp hi63 h63 he)]
        exact h.log_pow k hlt h63
      · exact h.log_pow k hlt h63
    · rw [if_pos h63]
      exact tableGet_tablePut_same _ _ _

theorem genRounds_tablesUpTo {poly : BitVec 7} (hp : poly ∈ primitivePolys) (n : Nat) {i : Nat} (hn : i + n ≤ 64)
    {x : BitVec 7} (hx : x = (alphaPow poly i).setWidth 7) {log alog : Vector Sym 64} (h : TablesUpTo poly i log alog) :
    TablesUpTo poly (i + n) (genRounds poly n i x log alog).1 (genRounds poly n i x log alog).2 := by
  induction n generalizing i x log alog with
  | zero => exact h
  | succ n ih =>
    have hx6 : x.setWidth 6 = alphaPow poly i := by simp [hx]
    rw [genRounds, hx6, ← Nat.add_assoc, Nat.add_right_comm]
    exact ih (by omega) (by rw [hx, gfDouble_eq_fieldMul hp, alphaPow]) (h.round hp (by omega))

/-- After all 64 rounds only LOG[0] is left to write, which no round has written. -/
theorem TablesUpTo.built {poly : BitVec 7} (hp : poly ∈ primitivePolys) {log alog : Vector Sym 64}
    (h : TablesUpTo poly 64 log alog) : TablesBuilt poly (tablePut log 0 0) alog where
  alog_pow i := by simpa using h.alog_pow i.toNat (by omega)
  log_pow i hi := by
    rw [tableGet_tablePut_other _ _ (alphaPow_ne_zero hp (by omega)).symm]
    simpa using h.log_pow i.toNat (by omega) hi
  log_zero := tableGet_tablePut_same _ _ _

theorem builtTables_eq (poly : BitVec 7) (log alog : Vector Sym 64) :
    builtTables poly log alog =
      (tablePut (genRounds poly 64 0 1 log alog).1 0 0, (genRounds poly 64 0 1 log alog).2) := rfl

/-- The generator leaves the tables of R78, whatever it found (R77, R78). -/
theorem builtTables_built {poly : BitVec 7} (hp : poly ∈ primitivePolys) (log alog : Vector Sym 64) :
    TablesBuilt poly (builtTables poly log alog).1 (builtTables poly log alog).2 := by
  have hnone : TablesUpTo poly 0 log alog :=
    ⟨fun k hk => absurd hk (Nat.not_lt_zero k), fun k hk => absurd hk (Nat.not_lt_zero k)⟩
  have hall := genRounds_tablesUpTo hp 64 (by decide) (x := 1) (by simp [alphaPow]) hnone
  rw [builtTables_eq]
  generalize genRounds poly 64 0 1 log alog = built at hall ⊢
  exact hall.built hp

end Sys2Proof.Machine
end

section
/-! ### The string ENCODE delivers: its length and its two ends (R109, R118, R119) -/

namespace Sys2Proof.Machine

/-- A string that passes validation has its ten fixed characters (R104). -/
theorem validateFixed_ok_length {cfg : Cfg} {s : List Byte} {ty : BarcodeType} (h : validateFixed cfg s = .ok ty) :
    10 ≤ s.length := by
  by_contra hs
  rw [validateFixed_tooShort (Nat.not_le.1 hs)] at h
  cases h

/-- A body the codec passes has its type's length (R109). -/
theorem codec_ok_body_length {cfg : Cfg} (ha : admits cfg = true) {s : List Byte} {ty : BarcodeType} {body : List Digit}
    (h : codec cfg s = .ok (ty, body)) : body.length = bodyLength (rowFor cfg.typeTable ty) := by
  obtain ⟨hv, hl, ciE, he, rfl⟩ := codec_ok h
  have hs := validateFixed_ok_length hv
  have hpad := padCustomer_length (encodeCustomer_fits ha hl he)
  simp only [bodyOf, bodyLength, dpidOf, List.length_append, encodeNumeric_length, List.length_take, List.length_drop,
    List.length_replicate, hpad]
  omega

/-- The framed length of a type fits into OBUF (R8 (f)), and so into OLEN (R8 (g)). -/
theorem framedLength_le {cfg : Cfg} (ha : admits cfg = true) (ty : BarcodeType) :
    bodyLength (rowFor cfg.typeTable ty) + 16 ≤ cfg.obufSize ∧ cfg.obufSize ≤ 127 := by
  obtain ⟨-, -, -, hrow⟩ := (rowAdmitted_iff _ _).1 (admits_row ha ty)
  obtain ⟨-, -, -, hsize⟩ := admits_sizes ha
  exact ⟨hrow, hsize⟩

/-- A framed string begins and ends with the sentinel "13" (R118). -/
theorem framed_ends (body par : List Digit) :
    (framed body par)[0]? = some 1 ∧ (framed body par)[1]? = some 3 ∧
      (framed body par)[(framed body par).length - 2]? = some 1 ∧
      (framed body par)[(framed body par).length - 1]? = some 3 := by
  have hlast : framed body par = (sentinel ++ body ++ par) ++ sentinel := rfl
  have hlen : (framed body par).length = (sentinel ++ body ++ par).length + 2 := by
    rw [hlast, List.length_append]
    rfl
  refine ⟨rfl, rfl, ?_, ?_⟩
  · rw [hlen, hlast, List.getElem?_append_right (by omega), Nat.add_sub_cancel, Nat.sub_self]
    rfl
  · rw [hlen, hlast, List.getElem?_append_right (by omega), Nat.add_sub_assoc (by decide), Nat.add_sub_cancel_left]
    rfl

/-- What an entry holds after a string is written from entry 0 on: its digit of the string, or what it held. -/
theorem writeDigits_zero_read (ds : List Digit) (m : Memory) (j : Nat) (h : m.wf = true) :
    (writeDigits m 0 ds).read? j = ((ds[j]?).map (fun d => d.setWidth 8)).or (m.read? j) := by
  by_cases hj : j < ds.length
  · have hat := writeDigits_at ds m 0 j h hj
    rw [Nat.zero_add] at hat
    simp [hat, hj]
  · rw [writeDigits_above ds m 0 j h (by omega), List.getElem?_eq_none (by omega)]
    rfl

theorem digit_cell_lt (d : Digit) : (d.setWidth 8).toNat < 4 := by
  rw [BitVec.toNat_setWidth]
  omega

end Sys2Proof.Machine
end

section
/-! ### What keeps the invariant: one lemma per update of the state -/

namespace Sys2Proof.Machine

theorem errBits_le (e : ErrCode) : (errBits e).toNat ≤ 9 := by
  cases e <;> decide

/-- RST gives a state with the invariant, whatever it found but the configuration (R148, R149). -/
theorem State.rst_inv {s : State} (ha : admits s.cfg = true) : s.rst.Inv where
  admitted := ha
  ibuf_wf := rfl
  obuf_wf := rfl
  ibuf_window _ _ := rfl
  obuf_size _ _ := rfl
  obuf_digit _ _ h := nomatch h
  err_legal := Nat.zero_le 9
  ready_tables h := nomatch h
  invalid_output _ := ⟨rfl, rfl⟩
  valid_output h := nomatch h

namespace State.Inv

variable {s : State}

/-! The fields the invariant does not speak of. -/

theorem setRes (h : s.Inv) (w : Word) : (s.setRes w).Inv := { h with }
theorem setAcc (h : s.Inv) (a : Vector Sym 4) : (s.setAcc a).Inv := { h with }
theorem setIlen (h : s.Inv) (v : Word) : (s.setIlen v).Inv := { h with }
theorem noteRead (h : s.Inv) (w : Word) : (s.noteRead w).Inv := { h with }
theorem setPending (h : s.Inv) (p : List HostOp) : (s.setPending p).Inv := { h with }

/-! How a command ends. -/

theorem setErr (h : s.Inv) (e : ErrCode) : (s.setErr e).Inv := { h with err_legal := errBits_le e }

theorem complete (h : s.Inv) : s.complete.Inv := h.setErr .none

theorem returnValue (h : s.Inv) (w : Word) : (s.returnValue w).Inv := (h.setRes w).setErr .none

theorem raise (h : s.Inv) (e : ErrCode) : (s.raise e).Inv := h.setErr e

theorem raiseEncode (h : s.Inv) (e : ErrCode) : (s.raiseEncode e).Inv :=
  { h with
    err_legal := errBits_le e
    invalid_output := fun _ => ⟨rfl, rfl⟩
    valid_output := fun hv => nomatch hv }

/-! The tables. -/

theorem genTables (h : s.Inv) : s.genTables.Inv :=
  { h with ready_tables := fun _ => builtTables_built (admits_poly h.admitted) s.log s.alog }

theorem ensureTables (h : s.Inv) : s.ensureTables.Inv := by
  rcases s.ensureTables_cases with ⟨-, he⟩ | ⟨-, he⟩ <;> rw [he]
  · exact h
  · exact h.genTables

/-! The buffers. -/

theorem putIbuf (h : s.Inv) {i : Nat} (hi : i < 64) (v : Word) : (s.putIbuf i v).Inv :=
  { h with
    ibuf_wf := s.ibuf.write_wf i _ h.ibuf_wf
    ibuf_window := fun j hj => by
      rw [State.putIbuf_ibuf, Memory.read_write_other _ _ h.ibuf_wf (by omega)]
      exact h.ibuf_window j hj }

/-- ENCODE delivers a framed string of its type's length (R118, R119, R122). -/
theorem deliver (h : s.Inv) {ty : BarcodeType} {body par : List Digit}
    (hbody : body.length = bodyLength (rowFor s.cfg.typeTable ty)) (hpar : par.length = 12) :
    (s.deliver ty (framed body par)).Inv := by
  obtain ⟨hsize, h127⟩ := framedLength_le h.admitted ty
  have hlen : (framed body par).length = bodyLength (rowFor s.cfg.typeTable ty) + 16 := by
    rw [framed_length, hbody, hpar]
  have holen : (s.deliver ty (framed body par)).olen.toNat = (framed body par).length := by
    rw [State.deliver_olen, BitVec.toNat_ofNat, Nat.mod_eq_of_lt (by omega)]
  have hread := fun j => writeDigits_zero_read (framed body par) s.obuf j h.obuf_wf
  obtain ⟨hfirst, hsecond, hlast2, hlast⟩ := framed_ends body par
  exact { h with
    obuf_wf := writeDigits_wf _ _ _ h.obuf_wf
    obuf_size := fun j hj => by
      rw [State.deliver_cfg] at hj
      rw [State.deliver_obuf, hread, List.getElem?_eq_none (by omega)]
      exact h.obuf_size j hj
    obuf_digit := fun j b hb => by
      rw [State.deliver_obuf, hread] at hb
      cases hd : (framed body par)[j]? with
      | none => exact h.obuf_digit j b (by simpa [hd] using hb)
      | some d =>
        rw [hd] at hb
        cases hb
        exact digit_cell_lt d
    err_legal := errBits_le .none
    invalid_output := fun hv => nomatch hv
    valid_output := fun _ => by
      refine ⟨ty, rfl, holen.trans hlen, fun j hj => ?_, ?_⟩
      · rw [holen] at hj
        simp [hread, hj]
      · rw [holen, State.deliver_obuf, hread, hread, hread, hread, hfirst, hsecond, hlast2, hlast]
        exact ⟨rfl, rfl, rfl, rfl⟩ }

theorem assemble (h : s.Inv) {ty : BarcodeType} {body : List Digit}
    (hbody : body.length = bodyLength (rowFor s.cfg.typeTable ty)) : (s.assemble ty body).Inv := by
  rcases s.assemble_cases ty body with ⟨-, he⟩ | ⟨-, he⟩ <;> rw [he]
  · exact h.raiseEncode .internal
  · exact (h.setAcc _).deliver hbody (parityDigits_length _ _)

end State.Inv

end Sys2Proof.Machine
end

section
/-! ### Every command and every host operation keeps the invariant -/

namespace Sys2Proof.Machine

/-- An outcome whose next state, where it has one, has the invariant. -/
def KeepsInv (o : Host.Outcome State Fault Refusal) : Prop := ∀ t, o = .next t → t.Inv

theorem keepsInv_next {s : State} (h : s.Inv) : KeepsInv (.next s) := by
  rintro t ⟨⟩
  exact h

theorem keepsInv_fault (f : Fault) : KeepsInv (.fault f) := nofun

theorem keepsInv_refused (r : Refusal) : KeepsInv (.refused r) := nofun

theorem exec_encode_keepsInv {s : State} (h : s.Inv) : KeepsInv (exec .encode s) := by
  rcases exec_encode_cases s with ⟨-, he⟩ | ⟨-, ⟨i, -, he⟩ | ⟨str, -, ⟨e, -, he⟩ | ⟨ty, body, hc, he⟩⟩⟩ <;> rw [he]
  · exact keepsInv_next (h.ensureTables.raiseEncode .bufRange)
  · exact keepsInv_fault _
  · exact keepsInv_next (h.ensureTables.raiseEncode e)
  · have hbody := codec_ok_body_length h.admitted hc
    rw [← s.ensureTables_cfg] at hbody
    exact keepsInv_next (h.ensureTables.assemble hbody)

/-- Every command keeps the invariant. -/
theorem exec_keepsInv (i : Instr) {s : State} (h : s.Inv) : KeepsInv (exec i s) := by
  cases i with
  | nop => exact keepsInv_next h.complete
  | gfinit => exact keepsInv_next h.genTables.complete
  | gflog a => exact keepsInv_next (h.ensureTables.returnValue _)
  | gfexp a => exact keepsInv_next (h.ensureTables.returnValue _)
  | gfmul a b => exact keepsInv_next (h.ensureTables.returnValue _)
  | pclr => exact keepsInv_next (h.setAcc accZero).complete
  | pfeed a => exact keepsInv_next (h.ensureTables.setAcc _).complete
  | pread k => exact keepsInv_next (h.returnValue _)
  | clookup c =>
    cases hc : charIndex c with
    | none => rw [exec_clookup_of_none hc]; exact keepsInv_next (h.raise _)
    | some i => rw [exec_clookup_of_some hc]; exact keepsInv_next (h.returnValue _)
  | nenc c =>
    cases hc : isDigit c with
    | false => rw [exec_nenc_of_not_digit hc]; exact keepsInv_next (h.raise _)
    | true => rw [exec_nenc_of_digit hc]; exact keepsInv_next (h.returnValue _)
  | cenc c =>
    cases hc : cEnc s.cfg c with
    | none => rw [exec_cenc_of_none hc]; exact keepsInv_next (h.raise _)
    | some t => rw [exec_cenc_of_some hc]; exact keepsInv_next (h.returnValue _)
  | barexp a => exact keepsInv_next (h.returnValue _)
  | pack d0 d1 d2 => exact keepsInv_next (h.returnValue _)
  | barshape k => exact keepsInv_next (h.returnValue _)
  | encode => exact exec_encode_keepsInv h
  | illegal w => exact keepsInv_next (h.raise _)

theorem hostWrite_keepsInv {s : State} (h : s.Inv) (a : Addr) (v : Word) : KeepsInv (hostWrite s a v) := by
  rcases hostWrite_cases s a v with ⟨-, he⟩ | ⟨-, he⟩ | ⟨i, ha, he⟩ | ⟨-, he⟩ <;> rw [he]
  · exact exec_keepsInv _ h
  · exact keepsInv_next (h.setIlen v)
  · exact keepsInv_next (h.putIbuf ((hostMap_index a).1 i ha).1 v)
  · exact keepsInv_next h

theorem hostStep_keepsInv {s : State} (h : s.Inv) (op : HostOp) : KeepsInv (hostStep s op) := by
  rcases hostStep_cases s op with ⟨a, w, -, -, he⟩ | ⟨a, f, -, -, he⟩ | ⟨a, v, -, he⟩ | ⟨-, he⟩ <;> rw [he]
  · exact keepsInv_next (h.noteRead w)
  · exact keepsInv_fault f
  · exact hostWrite_keepsInv h a v
  · exact keepsInv_next (State.rst_inv h.admitted)

theorem step_keepsInv {s : State} (h : s.Inv) : KeepsInv (step s) := by
  rcases step_cases s with ⟨-, he⟩ | ⟨-, -, he⟩ | ⟨-, op, rest, -, he⟩ <;> rw [he]
  · exact keepsInv_refused _
  · exact keepsInv_next h
  · exact hostStep_keepsInv (h.setPending rest) op

/-! ### The statements -/

/-- Settles O59: by what a step can do (`step_cases`), each update of the state by its own lemma; the two that carry the proof are
the table generator (`builtTables_built`) and the delivery of a framed string (`State.Inv.deliver`). -/
theorem stepKeepsInvariant : Obligations.StepKeepsInvariant :=
  fun _ t h => step_keepsInv h t

/-- Settles O50: a step takes up an operation or idles only under an admitted configuration. -/
theorem illFormedConfigRefused : Obligations.IllFormedConfigRefused := by
  intro s hbad
  rcases step_cases s with ⟨-, he⟩ | ⟨hgood, -⟩ | ⟨hgood, -⟩
  · exact he
  · exact absurd (hbad.symm.trans hgood) (by decide)
  · exact absurd (hbad.symm.trans hgood) (by decide)

/-- Settles O58: the state after reset is what RST leaves of it, and its default configuration is admitted. -/
theorem resetHasInvariant : Obligations.ResetHasInvariant :=
  State.rst_inv (s := State.reset) (by decide)

end Sys2Proof.Machine
end

section
/-! ### What each command can leave, said once for all commands -/

namespace Sys2Proof.Machine

/-- A check of the fixed fields never answers success or the code of an illegal word (R104). -/
theorem validateFixed_error {cfg : Cfg} {s : List Byte} {e : ErrCode} (h : validateFixed cfg s = .error e) :
    e ≠ .none ∧ e ≠ .illegalCmd := by
  rcases validateFixed_cases cfg s with ⟨-, he⟩ | ⟨-, -, he⟩ | ⟨-, -, -, he⟩ | ⟨-, -, -, -, he⟩ | ⟨-, -, -, ty, -, he⟩ <;>
    rw [he] at h <;> cases h <;> decide

/-- The codec never answers success or the code of an illegal word as its error (R109). -/
theorem codec_error {cfg : Cfg} {s : List Byte} {e : ErrCode} (h : codec cfg s = .error e) :
    e ≠ .none ∧ e ≠ .illegalCmd := by
  rcases codec_cases cfg s with ⟨e', hv, he⟩ | ⟨ty, -, ⟨-, he⟩ | ⟨-, ⟨-, he⟩ | ⟨ciE, -, he⟩⟩⟩ <;> rw [he] at h <;> cases h
  · exact validateFixed_error hv
  · decide
  · decide

/-- The state a command leaves of `s`, by the command: which updates it makes, whatever the values (R17, R80, R93, R94, R122,
R133 to R135). -/
inductive CommandEffect (s : State) : Instr → State → Prop
  | nop : CommandEffect s .nop s.complete
  | gfinit : CommandEffect s .gfinit s.genTables.complete
  | gflog (a : Sym) (w : Word) : CommandEffect s (.gflog a) (s.ensureTables.returnValue w)
  | gfexp (a : Sym) (w : Word) : CommandEffect s (.gfexp a) (s.ensureTables.returnValue w)
  | gfmul (a b : Sym) (w : Word) : CommandEffect s (.gfmul a b) (s.ensureTables.returnValue w)
  | pclr : CommandEffect s .pclr (s.setAcc accZero).complete
  | pfeed (a : Sym) (acc : Vector Sym 4) : CommandEffect s (.pfeed a) (s.ensureTables.setAcc acc).complete
  | pread (k : BitVec 2) (w : Word) : CommandEffect s (.pread k) (s.returnValue w)
  | clookup (c : Byte) (w : Word) : CommandEffect s (.clookup c) (s.returnValue w)
  | clookupFails (c : Byte) : CommandEffect s (.clookup c) (s.raise .encNotInAlphabet)
  | nenc (c : Byte) (w : Word) : CommandEffect s (.nenc c) (s.returnValue w)
  | nencFails (c : Byte) : CommandEffect s (.nenc c) (s.raise .encNotInAlphabet)
  | cenc (c : Byte) (w : Word) : CommandEffect s (.cenc c) (s.returnValue w)
  | cencFails (c : Byte) : CommandEffect s (.cenc c) (s.raise .encNotInAlphabet)
  | barexp (a : Sym) (w : Word) : CommandEffect s (.barexp a) (s.returnValue w)
  | pack (d0 d1 d2 : Digit) (w : Word) : CommandEffect s (.pack d0 d1 d2) (s.returnValue w)
  | barshape (k : Digit) (w : Word) : CommandEffect s (.barshape k) (s.returnValue w)
  | illegal (w : Word) : CommandEffect s (.illegal w) (s.raise .illegalCmd)
  | encodeFails (e : ErrCode) (hfails : e ≠ .none) (hlegal : e ≠ .illegalCmd) :
      CommandEffect s .encode (s.ensureTables.raiseEncode e)
  | encodeDelivers (acc : Vector Sym 4) (ty : BarcodeType) (out : List Digit) :
      CommandEffect s .encode ((s.ensureTables.setAcc acc).deliver ty out)

theorem exec_encode_effect {s t : State} (h : exec .encode s = .next t) : CommandEffect s .encode t := by
  rcases exec_encode_cases s with ⟨-, he⟩ | ⟨-, ⟨i, -, he⟩ | ⟨str, -, ⟨e, hc, he⟩ | ⟨ty, body, -, he⟩⟩⟩ <;>
    rw [he] at h <;> cases h
  · exact .encodeFails .bufRange (by decide) (by decide)
  · obtain ⟨hfails, hlegal⟩ := codec_error hc
    exact .encodeFails e hfails hlegal
  · rcases s.ensureTables.assemble_cases ty body with ⟨-, ha⟩ | ⟨-, ha⟩ <;> rw [ha]
    · exact .encodeFails .internal (by decide) (by decide)
    · exact .encodeDelivers _ _ _

/-- Everything a command that completes can do. -/
theorem exec_effect {i : Instr} {s t : State} (h : exec i s = .next t) : CommandEffect s i t := by
  cases i with
  | nop => cases h; exact .nop
  | gfinit => cases h; exact .gfinit
  | gflog a => cases h; exact .gflog a _
  | gfexp a => cases h; exact .gfexp a _
  | gfmul a b => cases h; exact .gfmul a b _
  | pclr => cases h; exact .pclr
  | pfeed a => cases h; exact .pfeed a _
  | pread k => cases h; exact .pread k _
  | clookup c =>
    cases hc : charIndex c with
    | none => rw [exec_clookup_of_none hc] at h; cases h; exact .clookupFails c
    | some i => rw [exec_clookup_of_some hc] at h; cases h; exact .clookup c _
  | nenc c =>
    cases hc : isDigit c with
    | false => rw [exec_nenc_of_not_digit hc] at h; cases h; exact .nencFails c
    | true => rw [exec_nenc_of_digit hc] at h; cases h; exact .nenc c _
  | cenc c =>
    cases hc : cEnc s.cfg c with
    | none => rw [exec_cenc_of_none hc] at h; cases h; exact .cencFails c
    | some t => rw [exec_cenc_of_some hc] at h; cases h; exact .cenc c _
  | barexp a => cases h; exact .barexp a _
  | pack d0 d1 d2 => cases h; exact .pack d0 d1 d2 _
  | barshape k => cases h; exact .barshape k _
  | encode => exact exec_encode_effect h
  | illegal w => cases h; exact .illegal w

theorem errBits_ne_illegal {e : ErrCode} (h : e ≠ .illegalCmd) : errBits e ≠ 8 := by
  cases e with
  | illegalCmd => exact absurd rfl h
  | _ => decide

/-! ### Which fields a command writes: the statements -/

/-- Settles O40: none of the updates a command makes touches the input. -/
theorem commandsKeepInput : Obligations.CommandsKeepInput := by
  intro i s t h
  cases exec_effect h <;> constructor <;> simp

/-- Settles O41: of all updates only `raiseEncode` and `deliver`, both ENCODE's, touch the output. -/
theorem onlyEncodeWritesOutput : Obligations.OnlyEncodeWritesOutput := by
  intro i s t hi h
  cases exec_effect h with
  | encodeFails | encodeDelivers => exact absurd rfl hi
  | _ => constructor <;> simp

/-- Settles O42: of all updates only `setAcc` touches ACC; an ENCODE that makes it leaves ERR 0. -/
theorem accWriters : Obligations.AccWriters := by
  intro i s t h hpclr hpfeed hencode
  cases exec_effect h with
  | pclr => exact absurd rfl hpclr
  | pfeed a => exact absurd rfl (hpfeed a)
  | encodeDelivers => exact absurd rfl (hencode rfl)
  | _ => simp

/-- Settles O43: of all updates only `returnValue` touches RES, and it leaves ERR 0. -/
theorem resKept : Obligations.ResKept := by
  intro i s t h hi
  cases exec_effect h with
  | nop | gfinit | pclr | pfeed | encodeFails | encodeDelivers | clookupFails | nencFails | cencFails | illegal => simp
  | _ => simp at hi

/-- Settles O45: how a command ends fixes its code, ENCODE's being neither 0 nor 8 where it fails. -/
theorem errorCodesByCommand : Obligations.ErrorCodesByCommand := by
  intro i s t h
  cases exec_effect h with
  | illegal w => exact .inl ⟨⟨w, rfl⟩, rfl⟩
  | clookup c => exact .inr (.inl ⟨.inl ⟨c, rfl⟩, .inl rfl⟩)
  | clookupFails c => exact .inr (.inl ⟨.inl ⟨c, rfl⟩, .inr rfl⟩)
  | nenc c => exact .inr (.inl ⟨.inr (.inl ⟨c, rfl⟩), .inl rfl⟩)
  | nencFails c => exact .inr (.inl ⟨.inr (.inl ⟨c, rfl⟩), .inr rfl⟩)
  | cenc c => exact .inr (.inl ⟨.inr (.inr ⟨c, rfl⟩), .inl rfl⟩)
  | cencFails c => exact .inr (.inl ⟨.inr (.inr ⟨c, rfl⟩), .inr rfl⟩)
  | encodeFails e hfails hlegal => exact .inr (.inr (.inl ⟨rfl, errBits_le e, errBits_ne_illegal hlegal⟩))
  | encodeDelivers => exact .inr (.inr (.inl ⟨rfl, errBits_le .none, (by decide : errBits .none ≠ 8)⟩))
  | _ => exact .inr (.inr (.inr ⟨nofun, nofun, nofun, nofun, nofun, rfl⟩))

end Sys2Proof.Machine
end

section
/-! ### The tables of R78 are the only ones, so building them again changes nothing (R83) -/

namespace Sys2Proof.Machine

theorem tableGet_ext {α : Type} {t u : Vector α 64} (h : ∀ i : Sym, tableGet t i = tableGet u i) : t = u := by
  ext k hk
  have hat := h (BitVec.ofNatLT k hk)
  simpa [tableGet] using hat

/-- The 64 elements in an order: the first 63 powers of α, then 0. -/
def elementAt (poly : BitVec 7) (i : Sym) : Sym := if i.toNat < 63 then alphaPow poly i.toNat else 0

theorem elementAt_of_lt (poly : BitVec 7) {i : Sym} (h : i.toNat < 63) : elementAt poly i = alphaPow poly i.toNat :=
  if_pos h

theorem elementAt_of_not_lt (poly : BitVec 7) {i : Sym} (h : ¬ i.toNat < 63) : elementAt poly i = 0 :=
  if_neg h

theorem elementAt_injective {poly : BitVec 7} (hp : poly ∈ primitivePolys) : Function.Injective (elementAt poly) := by
  intro i j he
  by_cases hi : i.toNat < 63 <;> by_cases hj : j.toNat < 63
  · rw [elementAt_of_lt poly hi, elementAt_of_lt poly hj] at he
    exact BitVec.eq_of_toNat_eq (alphaPow_injective hp hi hj he)
  · rw [elementAt_of_lt poly hi, elementAt_of_not_lt poly hj] at he
    exact absurd he (alphaPow_ne_zero hp hi.le)
  · rw [elementAt_of_not_lt poly hi, elementAt_of_lt poly hj] at he
    exact absurd he.symm (alphaPow_ne_zero hp hj.le)
  · exact BitVec.eq_of_toNat_eq (by omega)

/-- Every element is 0 or one of the first 63 powers of α, for these are 64 distinct elements (R78). -/
theorem eq_zero_or_alphaPow {poly : BitVec 7} (hp : poly ∈ primitivePolys) (a : Sym) :
    a = 0 ∨ ∃ i : Sym, i.toNat < 63 ∧ a = alphaPow poly i.toNat := by
  have hfinite : Finite Sym := Finite.of_injective BitVec.toFin BitVec.toFin_injective
  obtain ⟨i, rfl⟩ := Finite.surjective_of_injective (elementAt_injective hp) a
  by_cases hi : i.toNat < 63
  · exact .inr ⟨i, hi, elementAt_of_lt poly hi⟩
  · exact .inl (elementAt_of_not_lt poly hi)

/-- R78 fixes every entry of LOG and ALOG. -/
theorem TablesBuilt.unique {poly : BitVec 7} (hp : poly ∈ primitivePolys) {log alog log' alog' : Vector Sym 64}
    (h : TablesBuilt poly log alog) (h' : TablesBuilt poly log' alog') : log' = log ∧ alog' = alog := by
  constructor <;> refine tableGet_ext fun a => ?_
  · rcases eq_zero_or_alphaPow hp a with rfl | ⟨i, hi, rfl⟩
    · rw [h.log_zero, h'.log_zero]
    · rw [h.log_pow i hi, h'.log_pow i hi]
  · rw [h.alog_pow, h'.alog_pow]

/-- GFINIT over built tables leaves them as they are (R83). -/
theorem State.Inv.genTables_kept {s : State} (h : s.Inv) (hready : s.stat.ready = true) : TablesKept s s.genTables := by
  have hpoly := admits_poly h.admitted
  obtain ⟨hlog, halog⟩ := (h.ready_tables hready).unique hpoly (builtTables_built hpoly s.log s.alog)
  exact ⟨hlog, halog, hready.symm⟩

theorem State.Inv.genTables_ensured {s : State} (h : s.Inv) : TablesEnsured s s.genTables :=
  ⟨rfl, builtTables_built (admits_poly h.admitted) s.log s.alog, h.genTables_kept⟩

theorem State.Inv.ensureTables_ensured {s : State} (h : s.Inv) : TablesEnsured s s.ensureTables := by
  rcases s.ensureTables_cases with ⟨hready, he⟩ | ⟨-, he⟩ <;> rw [he]
  · exact ⟨hready, h.ready_tables hready, fun _ => ⟨rfl, rfl, rfl⟩⟩
  · exact h.genTables_ensured

/-- What a command does after the tables are ensured does not touch them. -/
theorem TablesEnsured.of_kept {s u t : State} (h : TablesEnsured s u) (hkept : TablesKept u t) : TablesEnsured s t := by
  obtain ⟨hlog, halog, hready⟩ := hkept
  refine ⟨hready.trans h.ready, ?_, fun hs => ?_⟩
  · rw [hlog, halog]
    exact h.built
  · obtain ⟨hlog', halog', hready'⟩ := h.kept hs
    exact ⟨hlog.trans hlog', halog.trans halog', hready.trans hready'⟩

/-- Settles O44: the six commands begin with `genTables` or `ensureTables`, which leave the tables ensured, and no later update of a
command touches the tables. -/
theorem tableWriters : Obligations.TableWriters := by
  intro i s t hinv h
  have hensured := hinv.ensureTables_ensured
  cases exec_effect h with
  | gfinit => exact ⟨fun _ => hinv.genTables_ensured.of_kept ⟨rfl, rfl, rfl⟩, fun hi => absurd rfl hi.1⟩
  | gflog | gfexp | gfmul | pfeed | encodeFails | encodeDelivers =>
    exact ⟨fun _ => hensured.of_kept ⟨rfl, rfl, rfl⟩, by simp⟩
  | _ => exact ⟨by simp, fun _ => ⟨rfl, rfl, rfl⟩⟩

end Sys2Proof.Machine
end

section
/-! ### Where ENCODE stops (R32, R54, R158) -/

namespace Sys2Proof.Machine

/-- ENCODE within IBUF_SIZE faults exactly as the read of its input does. -/
theorem exec_encode_of_unread {s : State} {i : Nat} (hsize : s.ilen.toNat ≤ s.cfg.ibufSize)
    (hread : readEntries s.ibuf 0 s.ilen.toNat = .error i) : exec .encode s = .fault (.unwrittenEntry .ibuf i) := by
  rcases exec_encode_cases s with ⟨hover, -⟩ | ⟨-, ⟨j, hj, he⟩ | ⟨str, hstr, -⟩⟩
  · omega
  · rw [hread] at hj
    cases hj
    exact he
  · rw [hread] at hstr
    cases hstr

/-- ENCODE completes exactly where it does not read its input, or reads it in full. -/
theorem exec_encode_completes_iff (s : State) :
    (∃ t, exec .encode s = .next t) ↔
      s.cfg.ibufSize < s.ilen.toNat ∨ ∃ str, readEntries s.ibuf 0 s.ilen.toNat = .ok str := by
  rcases exec_encode_cases s with ⟨hover, he⟩ | ⟨hsize, ⟨i, hread, he⟩ | ⟨str, hread, hcodec⟩⟩
  · exact ⟨fun _ => .inl hover, fun _ => ⟨_, he⟩⟩
  · simp [he, hread, Nat.not_lt.2 hsize]
  · refine ⟨fun _ => .inr ⟨str, hread⟩, fun _ => ?_⟩
    rcases hcodec with ⟨e, -, he⟩ | ⟨ty, body, -, he⟩ <;> exact ⟨_, he⟩

/-- A read of several entries gives a string exactly where every one of them is written. -/
theorem readEntries_zero_ok_iff (m : Memory) (n : Nat) :
    (∃ str, readEntries m 0 n = .ok str) ↔ ∀ i, i < n → (m.read? i).isSome = true := by
  cases hread : readEntries m 0 n with
  | error j =>
    obtain ⟨-, hj, hnone, -⟩ := (readEntries_error_iff m n 0 j).1 hread
    refine ⟨nofun, fun hall => ?_⟩
    have hsome := hall j (by omega)
    simp [hnone] at hsome
  | ok str =>
    obtain ⟨hlen, hat⟩ := (readEntries_ok_iff m n 0 str).1 hread
    refine ⟨fun _ i hi => ?_, fun _ => ⟨str, rfl⟩⟩
    have hi' := hat i (by omega)
    rw [Nat.zero_add] at hi'
    simp [hi']

/-- Settles O33: the read of the input answers the first unwritten entry, and it comes before every check but that of ILEN. -/
theorem encodeUnwrittenFaults : Obligations.EncodeUnwrittenFaults := by
  intro s i hsize hi hnone hbefore
  refine exec_encode_of_unread hsize ((readEntries_error_iff _ _ _ _).2 ⟨Nat.zero_le i, by omega, hnone, ?_⟩)
  exact fun k _ hk => hbefore k hk

/-- Settles O34: ENCODE stops only in the read of its input. -/
theorem encodeCompletesExactly : Obligations.EncodeCompletesExactly := by
  intro s
  rw [exec_encode_completes_iff, readEntries_zero_ok_iff]

end Sys2Proof.Machine
end

section
/-! ### What one host operation does, by its address (R24 to R26, R36 to R48) -/

namespace Sys2Proof.Machine

/-! The addresses that name one register each (R36). -/

theorem hostMap_cmd {a : Addr} (h : a.toNat = 0x00) : hostMap a = .cmd := by simp [hostMap, h]
theorem hostMap_res {a : Addr} (h : a.toNat = 0x01) : hostMap a = .res := by simp [hostMap, h]
theorem hostMap_stat {a : Addr} (h : a.toNat = 0x02) : hostMap a = .stat := by simp [hostMap, h]
theorem hostMap_ilen {a : Addr} (h : a.toNat = 0x03) : hostMap a = .ilen := by simp [hostMap, h]
theorem hostMap_olen {a : Addr} (h : a.toNat = 0x04) : hostMap a = .olen := by simp [hostMap, h]

theorem hostMap_ibuf_of_toNat {a : Addr} {i : Nat} (hi : i < 64) (h : a.toNat = 0x40 + i) : hostMap a = .ibuf i := by
  rw [← hostMap_ibuf i hi, ← h, BitVec.ofNat_toNat, BitVec.setWidth_eq]

theorem hostMap_obuf_of_toNat {a : Addr} {i : Nat} (hi : i < 67) (h : a.toNat = 0x80 + i) : hostMap a = .obuf i := by
  rw [← hostMap_obuf i hi, ← h, BitVec.ofNat_toNat, BitVec.setWidth_eq]

/-- The word a read of STAT returns, as a sum of its fields (R18, R23). -/
theorem statWord_eq_sum (st : Stat) :
    statWord st =
      BitVec.ofNat 16 (128 * st.ready.toNat + 64 * st.valid.toNat + 16 * st.btype.toNat + st.err.toNat) := by
  have hall : ∀ (err : BitVec 4) (btype : BitVec 2) (valid ready : Bool), statWord ⟨err, btype, valid, ready⟩ =
      BitVec.ofNat 16 (128 * ready.toNat + 64 * valid.toNat + 16 * btype.toNat + err.toNat) := by decide
  exact hall st.err st.btype st.valid st.ready

/-- A cell that holds a digit is read as it is (R31, R39). -/
theorem digit_cell_read {b : Byte} (h : b.toNat < 4) : (b.setWidth 2).setWidth 16 = BitVec.ofNat 16 b.toNat := by
  apply BitVec.eq_of_toNat_eq
  simp only [BitVec.toNat_setWidth, BitVec.toNat_ofNat]
  omega

/-- The addresses but CMD, ILEN and the IBUF window are those whose writes are ignored (R36, R37). -/
theorem hostMap_ignored {a : Addr}
    (h : (a.toNat = 0x01 ∨ a.toNat = 0x02 ∨ a.toNat = 0x04) ∨ (0x05 ≤ a.toNat ∧ a.toNat ≤ 0x3F) ∨ 0x80 ≤ a.toNat) :
    hostMap a = .res ∨ hostMap a = .stat ∨ hostMap a = .olen ∨ (∃ i, hostMap a = .obuf i) ∨ hostMap a = .reserved := by
  rcases h with (h | h | h) | h | h
  · exact .inl (hostMap_res h)
  · exact .inr (.inl (hostMap_stat h))
  · exact .inr (.inr (.inl (hostMap_olen h)))
  · exact .inr (.inr (.inr (.inr (hostMap_reserved a (.inl h)))))
  · by_cases hwindow : a.toNat ≤ 0xC2
    · exact .inr (.inr (.inr (.inl ⟨a.toNat - 0x80, hostMap_obuf_of_toNat (by omega) (by omega)⟩)))
    · exact .inr (.inr (.inr (.inr (hostMap_reserved a (.inr (by omega))))))

/-! The step that takes the host's next operation. -/

theorem step_of_pending {s : State} {op : HostOp} {rest : List HostOp} (ha : admits s.cfg = true)
    (hp : s.pending = op :: rest) : step s = hostStep (s.setPending rest) op := by
  rcases step_cases s with ⟨hbad, -⟩ | ⟨-, hnil, -⟩ | ⟨-, op', rest', hp', he⟩
  · exact absurd (ha.symm.trans hbad) (by decide)
  · exact absurd (hp.symm.trans hnil) (by simp)
  · cases hp.symm.trans hp'
    exact he

theorem hostRead_setPending (s : State) (p : List HostOp) (a : Addr) : hostRead (s.setPending p) a = hostRead s a := rfl

section Read
variable {s : State} {a : Addr} {rest : List HostOp}

/-- A read that returns a word: the host records it, and nothing else changes (R47). -/
theorem step_read_of_ok {w : Word} (ha : admits s.cfg = true) (hp : s.pending = .read a :: rest)
    (hread : hostRead s a = .ok w) : step s = .next { s with pending := rest, reads := w :: s.reads } := by
  simp only [step_of_pending ha hp, hostStep, hostRead_setPending, hread]
  rfl

theorem step_read_of_error {f : Fault} (ha : admits s.cfg = true) (hp : s.pending = .read a :: rest)
    (hread : hostRead s a = .error f) : step s = .fault f := by
  simp only [step_of_pending ha hp, hostStep, hostRead_setPending, hread]

end Read

section Map
variable {s : State} {a : Addr} {i : Nat} {b : Byte}

/-! What a read of each register returns (R17, R18, R24 to R26, R36 to R39). -/

theorem hostRead_cmd (h : hostMap a = .cmd) : hostRead s a = .ok 0 := by simp [hostRead, h]
theorem hostRead_res (h : hostMap a = .res) : hostRead s a = .ok s.res := by simp [hostRead, h]
theorem hostRead_stat (h : hostMap a = .stat) : hostRead s a = .ok (statWord s.stat) := by simp [hostRead, h]
theorem hostRead_ilen (h : hostMap a = .ilen) : hostRead s a = .ok (BitVec.ofNat 16 s.ilen.toNat) := by simp [hostRead, h]
theorem hostRead_olen (h : hostMap a = .olen) : hostRead s a = .ok (BitVec.ofNat 16 s.olen.toNat) := by simp [hostRead, h]
theorem hostRead_reserved (h : hostMap a = .reserved) : hostRead s a = .ok 0 := by simp [hostRead, h]

theorem hostRead_ibuf (h : hostMap a = .ibuf i) (hb : s.ibuf.read? i = some b) :
    hostRead s a = .ok (BitVec.ofNat 16 b.toNat) := by simp [hostRead, h, hb]

theorem hostRead_ibuf_unwritten (h : hostMap a = .ibuf i) (hb : s.ibuf.read? i = none) :
    hostRead s a = .error (.unwrittenEntry .ibuf i) := by simp [hostRead, h, hb]

theorem hostRead_obuf (h : hostMap a = .obuf i) (hb : s.obuf.read? i = some b) (hdigit : b.toNat < 4) :
    hostRead s a = .ok (BitVec.ofNat 16 b.toNat) := by simp only [hostRead, h, hb, digit_cell_read hdigit]

theorem hostRead_obuf_unwritten (h : hostMap a = .obuf i) (hb : s.obuf.read? i = none) :
    hostRead s a = .error (.unwrittenEntry .obuf i) := by simp [hostRead, h, hb]

/-! What a write to each register but CMD does (R24, R37 to R40). -/

theorem hostWrite_ilen (h : hostMap a = .ilen) (v : Word) : hostWrite s a v = .next (s.setIlen v) := by
  simp [hostWrite, h]

theorem hostWrite_ibuf (h : hostMap a = .ibuf i) (v : Word) : hostWrite s a v = .next (s.putIbuf i v) := by
  simp [hostWrite, h]

/-- The registers the host can only read, and the reserved addresses (R37, R39, R40). -/
theorem hostWrite_ignored
    (h : hostMap a = .res ∨ hostMap a = .stat ∨ hostMap a = .olen ∨ (∃ i, hostMap a = .obuf i) ∨ hostMap a = .reserved)
    (v : Word) : hostWrite s a v = .next s := by
  rcases h with h | h | h | ⟨i, h⟩ | h <;> simp [hostWrite, h]

end Map

/-! The configuration is written by no host operation (R14, R152). -/

theorem hostWrite_cfg {s t : State} {a : Addr} {v : Word} (h : hostWrite s a v = .next t) : t.cfg = s.cfg := by
  rcases hostWrite_cases s a v with ⟨-, he⟩ | ⟨-, he⟩ | ⟨i, -, he⟩ | ⟨-, he⟩ <;> rw [he] at h
  · exact (commandsKeepInput _ _ _ h).cfg
  · cases h
    rfl
  · cases h
    rfl
  · cases h
    rfl

theorem hostStep_cfg {s t : State} {op : HostOp} (h : hostStep s op = .next t) : t.cfg = s.cfg := by
  rcases hostStep_cases s op with ⟨a, w, -, -, he⟩ | ⟨a, f, -, -, he⟩ | ⟨a, v, -, he⟩ | ⟨-, he⟩ <;> rw [he] at h
  · cases h
    rfl
  · cases h
  · exact hostWrite_cfg h
  · cases h
    rfl

/-! ### The statements -/

/-- Settles O52: the map names the register (`hostMap_res` and its like), and each register has its own rule of reading. -/
theorem hostReadReturns : Obligations.HostReadReturns := by
  intro s a rest hinv hp
  have hok {w : Word} := step_read_of_ok (w := w) hinv.admitted hp
  have herror {f : Fault} := step_read_of_error (f := f) hinv.admitted hp
  refine ⟨fun h => ?cmd, fun h => ?res, fun h => ?stat, fun h => ?ilen, fun h => ?olen, fun hlo hhi => ?low,
    fun i b hi h hb => ?ibuf, fun i hi h hb => ?ibufUnwritten, fun i b hi h hb => ?obuf,
    fun i hi h hb => ?obufUnwritten, fun h => ?high⟩
  case cmd => exact hok (hostRead_cmd (hostMap_cmd h))
  case res => exact hok (hostRead_res (hostMap_res h))
  case stat =>
    rw [← statWord_eq_sum]
    exact hok (hostRead_stat (hostMap_stat h))
  case ilen => exact hok (hostRead_ilen (hostMap_ilen h))
  case olen => exact hok (hostRead_olen (hostMap_olen h))
  case low => exact hok (hostRead_reserved (hostMap_reserved a (.inl ⟨hlo, hhi⟩)))
  case ibuf => exact hok (hostRead_ibuf (hostMap_ibuf_of_toNat hi h) hb)
  case ibufUnwritten => exact herror (hostRead_ibuf_unwritten (hostMap_ibuf_of_toNat hi h) hb)
  case obuf => exact hok (hostRead_obuf (hostMap_obuf_of_toNat hi h) hb (hinv.obuf_digit i b hb))
  case obufUnwritten => exact herror (hostRead_obuf_unwritten (hostMap_obuf_of_toNat hi h) hb)
  case high => exact hok (hostRead_reserved (hostMap_reserved a (.inr h)))

/-- Settles O53: the map names the register, and each register has its own rule of writing. -/
theorem hostWriteStores : Obligations.HostWriteStores := by
  intro s a v rest hinv hp
  rw [step_of_pending hinv.admitted hp, hostStep]
  refine ⟨fun h => ?ilen, fun i hi h => ?ibuf, fun h => ?ignored⟩
  case ilen =>
    have hlow : v.setWidth 7 = BitVec.ofNat 7 (v.toNat % 128) := BitVec.eq_of_toNat_eq (by simp)
    rw [hostWrite_ilen (hostMap_ilen h), ← hlow]
    rfl
  case ibuf =>
    have hlow : v.setWidth 8 = BitVec.ofNat 8 (v.toNat % 256) := BitVec.eq_of_toNat_eq (by simp)
    refine ⟨_, hostWrite_ibuf (hostMap_ibuf_of_toNat hi h) v, rfl, ?_, fun j hj => ?_⟩
    · rw [← hlow]
      exact s.ibuf.read_write_same i _ hinv.ibuf_wf
    · exact s.ibuf.read_write_other _ hinv.ibuf_wf hj.symm
  case ignored => exact hostWrite_ignored (hostMap_ignored h) v

/-- Settles O55: no command writes the configuration (O40), no other host write does, and RST takes it over. -/
theorem stepKeepsConfig : Obligations.StepKeepsConfig := by
  intro s t h
  rcases step_cases s with ⟨-, he⟩ | ⟨-, -, he⟩ | ⟨-, op, rest, -, he⟩ <;> rw [he] at h
  · cases h
  · cases h
    rfl
  · exact (hostStep_cfg h).trans (s.setPending_cfg rest)

end Sys2Proof.Machine
end

section
/-! ### The table lookups of single characters: NENC and CENC (R44, R96 to R100, R111, R112) -/

namespace Sys2Proof.Machine

/-! The digits of a table entry as a number, the leftmost most significant (R44, R113). -/

theorem pack2_toNat (p : Pair) : (pack2 p).toNat = 4 * p.d0.toNat + p.d1.toNat := by
  have hall : ∀ d0 d1 : Digit, (pack2 ⟨d0, d1⟩).toNat = 4 * d0.toNat + d1.toNat := by decide
  exact hall p.d0 p.d1

theorem pack3_toNat (t : Triple) : (pack3 t).toNat = 16 * t.d0.toNat + 4 * t.d1.toNat + t.d2.toNat := by
  have hall : ∀ d0 d1 d2 : Digit, (pack3 ⟨d0, d1, d2⟩).toNat = 16 * d0.toNat + 4 * d1.toNat + d2.toNat := by decide
  exact hall t.d0 t.d1 t.d2

/-! The closed form of `charIndex` against the positions of the alphabet (R96, R97). -/

theorem charIndex_of_position {c : Byte} {i : Nat} (h : alphabet[i]? = some c) :
    charIndex c = some (BitVec.ofNat 6 i) := by
  have hall : alphabet.map charIndex = (List.range 64).map (fun i => some (BitVec.ofNat 6 i)) := by decide
  have hi : i < 64 := (List.getElem?_eq_some_iff.1 h).1
  have hat := congrArg (·[i]?) hall
  simpa [h, hi] using hat

theorem mem_byteRun {lo n : Nat} {c : Byte} (hlo : lo ≤ c.toNat) (hhi : c.toNat < lo + n) : c ∈ byteRun lo n :=
  List.mem_map.2 ⟨c.toNat - lo, List.mem_range.2 (by omega), by simp [Nat.add_sub_cancel' hlo]⟩

theorem mem_alphabet_of_charIndex {c : Byte} {i : Sym} (h : charIndex c = some i) : c ∈ alphabet := by
  simp only [alphabet, List.mem_append, or_assoc]
  simp only [charIndex] at h
  split at h
  case isTrue hdigit => exact .inl (mem_byteRun hdigit.1 (by omega))
  split at h
  case isTrue hupper => exact .inr (.inl (mem_byteRun hupper.1 (by omega)))
  split at h
  case isTrue hlower => exact .inr (.inr (.inl (mem_byteRun hlower.1 (by omega))))
  split at h
  case isTrue hspace => simp [BitVec.eq_of_toNat_eq (y := (0x20 : Byte)) hspace]
  split at h
  case isTrue hhash => simp [BitVec.eq_of_toNat_eq (y := (0x23 : Byte)) hhash]
  case isFalse => cases h

theorem charIndex_eq_none_of_not_mem {c : Byte} (h : c ∉ alphabet) : charIndex c = none :=
  Option.eq_none_iff_forall_ne_some.2 fun _ hc => h (mem_alphabet_of_charIndex hc)

/-! The table entry a character selects (R99, R100). -/

theorem tableGet_of_getElem? {α : Type} {t : Vector α 64} {i : Nat} {v : α} (h : t[i]? = some v) :
    tableGet t (BitVec.ofNat 6 i) = v := by
  obtain ⟨hi, hv⟩ := Vector.getElem?_eq_some_iff.1 h
  have hindex : (BitVec.ofNat 6 i).toNat = i := by simpa using hi
  simp only [tableGet, hindex, hv]

theorem cEnc_of_position {cfg : Cfg} {c : Byte} {i : Nat} {p : Triple} (hc : alphabet[i]? = some c)
    (hp : cfg.cTable[i]? = some p) : cEnc cfg c = some p := by
  simp only [cEnc, charIndex_of_position hc, tableGet_of_getElem? hp]

theorem cEnc_eq_none_of_not_mem (cfg : Cfg) {c : Byte} (h : c ∉ alphabet) : cEnc cfg c = none := by
  simp only [cEnc, charIndex_eq_none_of_not_mem h]

theorem digitVal_val {c : Byte} (h : DigitByte c) : (digitVal c).val = c.toNat - 0x30 := by
  obtain ⟨hlo, hhi⟩ := h
  exact Nat.mod_eq_of_lt (by omega)

theorem nEnc_of_digit {cfg : Cfg} {c : Byte} {p : Pair} (hc : DigitByte c)
    (hp : cfg.nTable[c.toNat - 0x30]? = some p) : nEnc cfg c = p := by
  obtain ⟨hi, hv⟩ := Vector.getElem?_eq_some_iff.1 hp
  simp only [nEnc, Fin.getElem_fin, digitVal_val hc, hv]

/-! What a command that only looks a value up keeps, whether it finds one or not (R17, R134). -/

theorem State.returnValue_frame (s : State) (w : Word) :
    (s.returnValue w).acc = s.acc ∧ InputKept s (s.returnValue w) ∧ OutputKept s (s.returnValue w) ∧
      TablesKept s (s.returnValue w) :=
  ⟨rfl, ⟨rfl, rfl, fun _ => rfl, rfl, rfl⟩, ⟨rfl, fun _ => rfl, rfl, rfl⟩, ⟨rfl, rfl, rfl⟩⟩

theorem State.raise_frame (s : State) (e : ErrCode) :
    (s.raise e).acc = s.acc ∧ InputKept s (s.raise e) ∧ OutputKept s (s.raise e) ∧ TablesKept s (s.raise e) :=
  ⟨rfl, ⟨rfl, rfl, fun _ => rfl, rfl, rfl⟩, ⟨rfl, fun _ => rfl, rfl, rfl⟩, ⟨rfl, rfl, rfl⟩⟩

/-! ### The statements -/

/-- Settles O23: a digit selects its N_TABLE entry, and any other byte ends the command in an error. -/
theorem nencResult : Obligations.NencResult := by
  intro c s
  cases hdigit : isDigit c with
  | true =>
    have hc : DigitByte c := (isDigit_iff c).1 hdigit
    refine ⟨_, exec_nenc_of_digit hdigit s, fun p _ hp => ⟨?res, rfl⟩, fun hnot => absurd hc hnot,
      s.returnValue_frame _⟩
    case res => rw [State.returnValue_res, BitVec.toNat_setWidth_of_le (by decide), nEnc_of_digit hc hp, pack2_toNat]
  | false =>
    have hc : ¬ DigitByte c := fun h => by simp [(isDigit_iff c).2 h] at hdigit
    exact ⟨_, exec_nenc_of_not_digit hdigit s, fun _ h => absurd h hc, fun _ => ⟨rfl, rfl⟩, s.raise_frame _⟩

/-- Settles O24: a character of the alphabet selects the C_TABLE entry at its position, and any other byte ends the command in
an error. -/
theorem cencResult : Obligations.CencResult := by
  intro c s
  cases hentry : cEnc s.cfg c with
  | some t =>
    refine ⟨_, exec_cenc_of_some hentry, fun i p hc hp => ⟨?res, rfl⟩, fun hnot => ?outside, s.returnValue_frame _⟩
    case res =>
      have hsame : t = p := Option.some.inj (hentry.symm.trans (cEnc_of_position hc hp))
      rw [State.returnValue_res, BitVec.toNat_setWidth_of_le (by decide), hsame, pack3_toNat]
    case outside => simp [cEnc_eq_none_of_not_mem s.cfg hnot] at hentry
  | none =>
    refine ⟨_, exec_cenc_of_none hentry, fun i p hc hp => ?inside, fun _ => ⟨rfl, rfl⟩, s.raise_frame _⟩
    case inside => simp [cEnc_of_position hc hp] at hentry

/-- Settles O39: each command but ENCODE answers a next state, the three lookups in both of their cases. -/
theorem otherCommandsComplete : Obligations.OtherCommandsComplete := by
  intro i s hi
  cases i with
  | encode => exact absurd rfl hi
  | clookup c =>
    cases hc : charIndex c with
    | some i => exact ⟨_, exec_clookup_of_some hc s⟩
    | none => exact ⟨_, exec_clookup_of_none hc s⟩
  | nenc c =>
    obtain ⟨t, ht, -⟩ := nencResult c s
    exact ⟨t, ht⟩
  | cenc c =>
    obtain ⟨t, ht, -⟩ := cencResult c s
    exact ⟨t, ht⟩
  | _ => exact ⟨_, rfl⟩

end Sys2Proof.Machine
end

section
/-! ### Two host writes followed to their effect: a command issued, a byte stored and read back (R38, R41, R48) -/

namespace Sys2Proof.Machine

theorem hostWrite_cmd {s : State} {a : Addr} (h : hostMap a = .cmd) (v : Word) :
    hostWrite s a v = exec (decode v) s := by
  simp [hostWrite, h]

section Write
variable {s : State} {a : Addr} {v : Word} {rest : List HostOp}

/-- A write to CMD runs the command over the state without that write (R41). -/
theorem step_write_cmd (ha : admits s.cfg = true) (hmap : hostMap a = .cmd) (hp : s.pending = .write a v :: rest) :
    step s = exec (decode v) (s.setPending rest) :=
  (step_of_pending ha hp).trans (hostWrite_cmd hmap v)

theorem step_write_ibuf {i : Nat} (ha : admits s.cfg = true) (hmap : hostMap a = .ibuf i)
    (hp : s.pending = .write a v :: rest) : step s = .next ((s.setPending rest).putIbuf i v) :=
  (step_of_pending ha hp).trans (hostWrite_ibuf hmap v)

end Write

/-- A read of the entry just written returns the low byte of the word written (R38). -/
theorem hostRead_putIbuf {s : State} {a : Addr} {i : Nat} (hmap : hostMap a = .ibuf i) (hwf : s.ibuf.wf = true)
    (v : Word) : hostRead (s.putIbuf i v) a = .ok (BitVec.ofNat 16 (v.toNat % 256)) := by
  have hentry : (s.putIbuf i v).ibuf.read? i = some (v.setWidth 8) := s.ibuf.read_write_same i _ hwf
  rw [hostRead_ibuf hmap hentry, BitVec.toNat_setWidth]

/-! ### The statements -/

/-- Settles O54: the write takes one step and the read the next, at the entry the address names. -/
theorem ibufReadsBack : Obligations.IbufReadsBack := by
  intro s a v rest hinv hlo hhi hp
  have hmap : hostMap a = .ibuf (a.toNat - 0x40) := hostMap_ibuf_of_toNat (by omega) (by omega)
  exact ⟨_, _, step_write_ibuf hinv.admitted hmap hp,
    step_read_of_ok hinv.admitted rfl (hostRead_putIbuf hmap hinv.ibuf_wf v), rfl, rfl⟩

/-- Settles O48: the step takes the write to CMD, which `withFetchWord` puts before the operations still waiting. -/
theorem stepRunsDecodedCommand : Obligations.StepRunsDecodedCommand := by
  have hmap : hostMap 0x00 = .cmd := hostMap_cmd rfl
  refine ⟨fun s w rest ha hp => step_write_cmd ha hmap hp, fun s w ha hw => ?fetch⟩
  case fetch =>
    have hp : (s.withFetchWord 16 w).pending = .write 0x00 (BitVec.ofNat 16 w) :: s.pending := by
      simp [State.withFetchWord, State.issueNext, Nat.mod_eq_of_lt hw]
    exact step_write_cmd (s := s.withFetchWord 16 w) ha hmap hp

end Sys2Proof.Machine
end

section
/-! ### The fields of a command word: what each format writes and reads back (R55 to R62) -/

namespace Sys2Proof.Machine

open Sys2Proof.Laws (opBits_bit opcodeOf_opBits_or twoSyms_bits)

/-- A field below bit 12 does not see the opcode. -/
theorem extract_opBits_or (op : BitVec 4) (v : Word) {start len : Nat} (h : start + len ≤ 12) :
    (opBits op ||| v).extractLsb' start len = v.extractLsb' start len := by
  apply BitVec.eq_of_getLsbD_eq
  intro i hi
  have hlow : ¬ 12 ≤ start + i := by omega
  simp [opBits_bit, hlow]

/-- A field that starts at bit 0 holds the operand. -/
theorem extract_setWidth {n : Nat} (a : BitVec n) (h : n ≤ 16) : (a.setWidth 16).extractLsb' 0 n = a := by
  apply BitVec.eq_of_getLsbD_eq
  intro i hi
  have h16 : i < 16 := by omega
  simp [h16, hi]

/-! The operands read from a word are those it was written with. -/

theorem symLow_wordA (op : BitVec 4) (a : Sym) : symLow (wordA op a) = a := by
  rw [symLow, wordA, extract_opBits_or op _ (by decide), extract_setWidth a (by decide)]

theorem charField_wordC (op : BitVec 4) (c : Byte) : charField (wordC op c) = c := by
  rw [charField, wordC, extract_opBits_or op _ (by decide), extract_setWidth c (by decide)]

theorem pairLow_wordK (op : BitVec 4) (k : BitVec 2) : pairLow (wordK op k) = k := by
  rw [pairLow, wordK, extract_opBits_or op _ (by decide), extract_setWidth k (by decide)]

theorem symHigh_wordAB (op : BitVec 4) (a b : Sym) : symHigh (wordAB op a b) = a := by
  rw [symHigh, wordAB, BitVec.or_assoc, extract_opBits_or op _ (by decide)]
  apply BitVec.eq_of_getLsbD_eq
  intro i hi
  have h16 : 6 + i < 16 := by omega
  simp [hi, h16]

theorem symLow_wordAB (op : BitVec 4) (a b : Sym) : symLow (wordAB op a b) = b := by
  rw [symLow, wordAB, BitVec.or_assoc, extract_opBits_or op _ (by decide)]
  apply BitVec.eq_of_getLsbD_eq
  intro i hi
  have h16 : i < 16 := by omega
  simp [hi, h16]

theorem digits_wordD3 (op : BitVec 4) (d0 d1 d2 : Digit) :
    pairHigh (wordD3 op d0 d1 d2) = d0 ∧ pairMid (wordD3 op d0 d1 d2) = d1 ∧ pairLow (wordD3 op d0 d1 d2) = d2 := by
  have hdigits : ∀ d0 d1 d2 : Digit,
      let v : Word := (d0.setWidth 16 <<< 8) ||| ((d1.setWidth 16 <<< 4) ||| d2.setWidth 16)
      v.extractLsb' 8 2 = d0 ∧ v.extractLsb' 4 2 = d1 ∧ v.extractLsb' 0 2 = d2 := by decide
  simp only [pairHigh, pairMid, pairLow, wordD3, BitVec.or_assoc]
  rw [extract_opBits_or op _ (by decide), extract_opBits_or op _ (by decide), extract_opBits_or op _ (by decide)]
  exact hdigits d0 d1 d2

/-! The opcode read from a word is the one it was written with. -/

theorem opcodeOf_wordN (op : BitVec 4) : opcodeOf (wordN op) = op := by
  revert op
  decide

/-- An operand of at most twelve bits leaves the opcode as it is. -/
theorem opcodeOf_opBits_or_setWidth (op : BitVec 4) {n : Nat} (a : BitVec n) (h : n ≤ 12) :
    opcodeOf (opBits op ||| a.setWidth 16) = op := by
  refine opcodeOf_opBits_or op _ fun i hi => ?_
  simp [BitVec.getLsbD_of_ge a i (by omega)]

theorem opcodeOf_wordA (op : BitVec 4) (a : Sym) : opcodeOf (wordA op a) = op :=
  opcodeOf_opBits_or_setWidth op a (by decide)

theorem opcodeOf_wordC (op : BitVec 4) (c : Byte) : opcodeOf (wordC op c) = op :=
  opcodeOf_opBits_or_setWidth op c (by decide)

theorem opcodeOf_wordK (op : BitVec 4) (k : BitVec 2) : opcodeOf (wordK op k) = op :=
  opcodeOf_opBits_or_setWidth op k (by decide)

theorem opcodeOf_wordAB (op : BitVec 4) (a b : Sym) : opcodeOf (wordAB op a b) = op := by
  rw [wordAB, BitVec.or_assoc]
  exact opcodeOf_opBits_or op _ (twoSyms_bits a b).2

theorem opcodeOf_wordD3 (op : BitVec 4) (d0 d1 d2 : Digit) : opcodeOf (wordD3 op d0 d1 d2) = op := by
  have hspread : ∀ d0 d1 d2 : Digit, ((d0.setWidth 16 <<< 8) ||| ((d1.setWidth 16 <<< 4) ||| d2.setWidth 16) : Word) =
      ((d0.setWidth 12 <<< 8) ||| ((d1.setWidth 12 <<< 4) ||| d2.setWidth 12) : BitVec 12).setWidth 16 := by decide
  rw [wordD3, BitVec.or_assoc, BitVec.or_assoc, hspread]
  exact opcodeOf_opBits_or_setWidth op _ (by decide)

/-- A field of a word, put back where it was read. -/
theorem field_in_place (w : Word) (start len : Nat) :
    (w.extractLsb' start len).setWidth 16 <<< start = w &&& ((BitVec.allOnes len).setWidth 16 <<< start) := by
  apply BitVec.eq_of_getLsbD_eq
  intro i hi
  by_cases hs : i < start
  · simp [hs]
  · have hback : start + (i - start) = i := by omega
    by_cases hl : i - start < len <;> simp [hs, hl, hi, hback]

theorem low_field_in_place (w : Word) (len : Nat) :
    (w.extractLsb' 0 len).setWidth 16 = w &&& (BitVec.allOnes len).setWidth 16 := by
  have h := field_in_place w 0 len
  rwa [BitVec.shiftLeft_zero, BitVec.shiftLeft_zero] at h

/-- A word is its opcode bits and its operand bits, where its other bits are those of the opcode. -/
theorem opBits_or_operands {w mask : Word} {op : BitVec 4} (h : w &&& mask = opBits op) :
    opBits op ||| (w &&& ~~~mask) = w := by
  rw [← h, ← BitVec.and_or_distrib_left, BitVec.or_not_self, BitVec.and_allOnes]

/-! A word that agrees with the opcode under the mask of its format is the word of the operands read from it. -/

section Rebuild
variable {w : Word} {op : BitVec 4}

theorem wordN_of_masked (h : w &&& formatMask .n = opBits op) : wordN op = w := by
  rw [wordN, ← h]
  exact BitVec.and_allOnes

theorem wordA_of_masked (h : w &&& formatMask .a = opBits op) : wordA op (symLow w) = w := by
  have hfield : (symLow w).setWidth 16 = w &&& ~~~formatMask .a := low_field_in_place w 6
  rw [wordA, hfield, opBits_or_operands h]

theorem wordC_of_masked (h : w &&& formatMask .c = opBits op) : wordC op (charField w) = w := by
  have hfield : (charField w).setWidth 16 = w &&& ~~~formatMask .c := low_field_in_place w 8
  rw [wordC, hfield, opBits_or_operands h]

theorem wordK_of_masked (h : w &&& formatMask .k = opBits op) : wordK op (pairLow w) = w := by
  have hfield : (pairLow w).setWidth 16 = w &&& ~~~formatMask .k := low_field_in_place w 2
  rw [wordK, hfield, opBits_or_operands h]

theorem wordAB_of_masked (h : w &&& formatMask .ab = opBits op) : wordAB op (symHigh w) (symLow w) = w := by
  have hhigh : (symHigh w).setWidth 16 <<< 6 = w &&& 0x0FC0 := field_in_place w 6 6
  have hlow : (symLow w).setWidth 16 = w &&& 0x003F := low_field_in_place w 6
  rw [wordAB, BitVec.or_assoc, hhigh, hlow, ← BitVec.and_or_distrib_left]
  exact opBits_or_operands h

theorem wordD3_of_masked (h : w &&& formatMask .d3 = opBits op) :
    wordD3 op (pairHigh w) (pairMid w) (pairLow w) = w := by
  have hhigh : (pairHigh w).setWidth 16 <<< 8 = w &&& 0x0300 := field_in_place w 8 2
  have hmid : (pairMid w).setWidth 16 <<< 4 = w &&& 0x0030 := field_in_place w 4 2
  have hlow : (pairLow w).setWidth 16 = w &&& 0x0003 := low_field_in_place w 2
  rw [wordD3, BitVec.or_assoc, BitVec.or_assoc, hhigh, hmid, hlow, ← BitVec.and_or_distrib_left,
    ← BitVec.and_or_distrib_left]
  exact opBits_or_operands h

end Rebuild

/-! ### The opcode of a word and the legality of a word (R55, R63 to R65) -/

theorem opBits_opcodeOf (w : Word) : opBits (opcodeOf w) = w &&& 0xF000 := field_in_place w 12 4

theorem opBits_injective : ∀ op op' : BitVec 4, opBits op = opBits op' → op = op' := by decide

/-- A word has the opcode that its top four bits spell. -/
theorem opcodeOf_eq_iff (w : Word) (op : BitVec 4) : opcodeOf w = op ↔ w &&& 0xF000 = opBits op := by
  rw [← opBits_opcodeOf]
  exact ⟨congrArg opBits, opBits_injective _ _⟩

theorem opBits_top (op : BitVec 4) : opBits op &&& 0xF000 = opBits op := by
  revert op
  decide

/-! The rows of the opcode map (R63), by their opcode. -/

theorem opcodeMap_row : ∀ r ∈ opcodeMap, rowOf r.op = some r ∧ r.matchBits = opBits r.op ∧ r.mask &&& 0xF000 = 0xF000 := by
  decide

/-- A word whose opcode selects a row is illegal exactly where it differs from the row's match under its mask (R64). -/
theorem isIllegalWord_of_row {w : Word} {r : OpRow} (hr : r ∈ opcodeMap) (hop : w &&& 0xF000 = r.matchBits) :
    isIllegalWord w = true ↔ w &&& r.mask ≠ r.matchBits := by
  obtain ⟨hrow, hmatch, -⟩ := opcodeMap_row r hr
  have hopcode : opcodeOf w = r.op := (opcodeOf_eq_iff w r.op).2 (hop.trans hmatch)
  simp [isIllegalWord, hopcode, hrow]

/-- A word that agrees with a row under its mask has the opcode of the row. -/
theorem top_bits_of_masked {w : Word} {r : OpRow} (hr : r ∈ opcodeMap) (h : w &&& r.mask = r.matchBits) :
    w &&& 0xF000 = r.matchBits := by
  obtain ⟨-, hmatch, hmask⟩ := opcodeMap_row r hr
  calc w &&& 0xF000 = w &&& (r.mask &&& 0xF000) := by rw [hmask]
    _ = opBits r.op &&& 0xF000 := by rw [← BitVec.and_assoc, h, hmatch]
    _ = opBits r.op := opBits_top r.op
    _ = r.matchBits := hmatch.symm

/-- The legal words are those that agree with a row of the opcode map under its mask (R63, R68). -/
theorem legal_iff (w : Word) : isIllegalWord w = false ↔ ∃ r ∈ opcodeMap, w &&& r.mask = r.matchBits := by
  constructor
  · intro h
    unfold isIllegalWord at h
    split at h
    · cases h
    · next r hr => exact ⟨r, List.mem_of_find?_eq_some hr, by simpa using h⟩
  · rintro ⟨r, hr, h⟩
    rw [← Bool.not_eq_true, isIllegalWord_of_row hr (top_bits_of_masked hr h)]
    exact not_not_intro h

theorem isIllegalWord_of_opcodeF {w : Word} (h : w &&& 0xF000 = 0xF000) : isIllegalWord w = true := by
  have hopcode : opcodeOf w = 0xF := (opcodeOf_eq_iff w 0xF).2 h
  have hrow : rowOf 0xF = none := by decide
  simp only [isIllegalWord, hopcode, hrow]

end Sys2Proof.Machine
end

section
/-! ### Decoding and encoding undo each other (R68, R72) -/

namespace Sys2Proof.Machine

open Sys2Proof.Laws

theorem decode_of_illegal {w : Word} (h : isIllegalWord w = true) : decode w = .illegal w := by
  simp [decode, h]

section Legal
variable {w : Word} (h : isIllegalWord w = false)
include h

/-! What a legal word decodes to, by its opcode (R63). -/

theorem decode_eq_nop (hop : opcodeOf w = 0x0) : decode w = .nop := by simp [decode, h, hop]
theorem decode_eq_gfinit (hop : opcodeOf w = 0x1) : decode w = .gfinit := by simp [decode, h, hop]
theorem decode_eq_gflog (hop : opcodeOf w = 0x2) : decode w = .gflog (symLow w) := by simp [decode, h, hop]
theorem decode_eq_gfexp (hop : opcodeOf w = 0x3) : decode w = .gfexp (symLow w) := by simp [decode, h, hop]
theorem decode_eq_gfmul (hop : opcodeOf w = 0x4) : decode w = .gfmul (symHigh w) (symLow w) := by simp [decode, h, hop]
theorem decode_eq_pclr (hop : opcodeOf w = 0x5) : decode w = .pclr := by simp [decode, h, hop]
theorem decode_eq_pfeed (hop : opcodeOf w = 0x6) : decode w = .pfeed (symLow w) := by simp [decode, h, hop]
theorem decode_eq_pread (hop : opcodeOf w = 0x7) : decode w = .pread (pairLow w) := by simp [decode, h, hop]
theorem decode_eq_clookup (hop : opcodeOf w = 0x8) : decode w = .clookup (charField w) := by simp [decode, h, hop]
theorem decode_eq_nenc (hop : opcodeOf w = 0x9) : decode w = .nenc (charField w) := by simp [decode, h, hop]
theorem decode_eq_cenc (hop : opcodeOf w = 0xA) : decode w = .cenc (charField w) := by simp [decode, h, hop]
theorem decode_eq_barexp (hop : opcodeOf w = 0xB) : decode w = .barexp (symLow w) := by simp [decode, h, hop]
theorem decode_eq_pack (hop : opcodeOf w = 0xC) : decode w = .pack (pairHigh w) (pairMid w) (pairLow w) := by
  simp [decode, h, hop]
theorem decode_eq_barshape (hop : opcodeOf w = 0xD) : decode w = .barshape (pairLow w) := by simp [decode, h, hop]
theorem decode_eq_encode (hop : opcodeOf w = 0xE) : decode w = .encode := by simp [decode, h, hop]

end Legal

/-! ### The statements -/

/-- Settles O2: the word is legal, it has the opcode of its row, and each operand is read from where it was written. -/
theorem encodedCommandDecodes : Obligations.EncodedCommandDecodes := by
  intro i hwf
  cases i with
  | nop => exact decode_eq_nop (EncodedLegality.nop hwf) (opcodeOf_wordN 0x0)
  | gfinit => exact decode_eq_gfinit (EncodedLegality.gfinit hwf) (opcodeOf_wordN 0x1)
  | gflog a =>
    have hdecode := decode_eq_gflog (EncodedLegality.gflog a hwf) (opcodeOf_wordA 0x2 a)
    exact hdecode.trans (congrArg Instr.gflog (symLow_wordA 0x2 a))
  | gfexp a =>
    have hdecode := decode_eq_gfexp (EncodedLegality.gfexp a hwf) (opcodeOf_wordA 0x3 a)
    exact hdecode.trans (congrArg Instr.gfexp (symLow_wordA 0x3 a))
  | gfmul a b =>
    have hdecode := decode_eq_gfmul (EncodedLegality.gfmul a b hwf) (opcodeOf_wordAB 0x4 a b)
    exact hdecode.trans (congrArg₂ Instr.gfmul (symHigh_wordAB 0x4 a b) (symLow_wordAB 0x4 a b))
  | pclr => exact decode_eq_pclr (EncodedLegality.pclr hwf) (opcodeOf_wordN 0x5)
  | pfeed a =>
    have hdecode := decode_eq_pfeed (EncodedLegality.pfeed a hwf) (opcodeOf_wordA 0x6 a)
    exact hdecode.trans (congrArg Instr.pfeed (symLow_wordA 0x6 a))
  | pread k =>
    have hdecode := decode_eq_pread (EncodedLegality.pread k hwf) (opcodeOf_wordK 0x7 k)
    exact hdecode.trans (congrArg Instr.pread (pairLow_wordK 0x7 k))
  | clookup c =>
    have hdecode := decode_eq_clookup (EncodedLegality.clookup c hwf) (opcodeOf_wordC 0x8 c)
    exact hdecode.trans (congrArg Instr.clookup (charField_wordC 0x8 c))
  | nenc c =>
    have hdecode := decode_eq_nenc (EncodedLegality.nenc c hwf) (opcodeOf_wordC 0x9 c)
    exact hdecode.trans (congrArg Instr.nenc (charField_wordC 0x9 c))
  | cenc c =>
    have hdecode := decode_eq_cenc (EncodedLegality.cenc c hwf) (opcodeOf_wordC 0xA c)
    exact hdecode.trans (congrArg Instr.cenc (charField_wordC 0xA c))
  | barexp a =>
    have hdecode := decode_eq_barexp (EncodedLegality.barexp a hwf) (opcodeOf_wordA 0xB a)
    exact hdecode.trans (congrArg Instr.barexp (symLow_wordA 0xB a))
  | pack d0 d1 d2 =>
    have hdecode := decode_eq_pack (EncodedLegality.pack d0 d1 d2 hwf) (opcodeOf_wordD3 0xC d0 d1 d2)
    obtain ⟨h0, h1, h2⟩ := digits_wordD3 0xC d0 d1 d2
    rwa [encode, h0, h1, h2] at hdecode
  | barshape k =>
    have hdecode := decode_eq_barshape (EncodedLegality.barshape k hwf) (opcodeOf_wordK 0xD k)
    exact hdecode.trans (congrArg Instr.barshape (pairLow_wordK 0xD k))
  | encode => exact decode_eq_encode (EncodedLegality.encode hwf) (opcodeOf_wordN 0xE)
  | illegal w => exact decode_of_illegal hwf

/-- Every word is the word of a well-formed command: where it agrees with a row, of that row's command with the operands read
from the word; and else of ILLEGAL. -/
theorem exists_wf_encode_eq (w : Word) : ∃ i : Instr, i.wf = true ∧ encode i = w := by
  cases hw : isIllegalWord w with
  | true => exact ⟨.illegal w, hw, rfl⟩
  | false =>
    obtain ⟨r, hr, h⟩ := (legal_iff w).1 hw
    simp only [opcodeMap, List.mem_cons, List.not_mem_nil, or_false] at hr
    rcases hr with rfl | rfl | rfl | rfl | rfl | rfl | rfl | rfl | rfl | rfl | rfl | rfl | rfl | rfl | rfl
    · exact ⟨.nop, rfl, wordN_of_masked h⟩
    · exact ⟨.gfinit, rfl, wordN_of_masked h⟩
    · exact ⟨.gflog (symLow w), rfl, wordA_of_masked h⟩
    · exact ⟨.gfexp (symLow w), rfl, wordA_of_masked h⟩
    · exact ⟨.gfmul (symHigh w) (symLow w), rfl, wordAB_of_masked h⟩
    · exact ⟨.pclr, rfl, wordN_of_masked h⟩
    · exact ⟨.pfeed (symLow w), rfl, wordA_of_masked h⟩
    · exact ⟨.pread (pairLow w), rfl, wordK_of_masked h⟩
    · exact ⟨.clookup (charField w), rfl, wordC_of_masked h⟩
    · exact ⟨.nenc (charField w), rfl, wordC_of_masked h⟩
    · exact ⟨.cenc (charField w), rfl, wordC_of_masked h⟩
    · exact ⟨.barexp (symLow w), rfl, wordA_of_masked h⟩
    · exact ⟨.pack (pairHigh w) (pairMid w) (pairLow w), rfl, wordD3_of_masked h⟩
    · exact ⟨.barshape (pairLow w), rfl, wordK_of_masked h⟩
    · exact ⟨.encode, rfl, wordN_of_masked h⟩

/-- Settles O3: the word is that of some well-formed command, and decoding gives that command back (O2). -/
theorem decodedWordReencodes : Obligations.DecodedWordReencodes := by
  intro w
  obtain ⟨i, hwf, rfl⟩ := exists_wf_encode_eq w
  rw [encodedCommandDecodes i hwf]
  exact ⟨hwf, rfl⟩

/-- A word decodes to the command it is the word of. -/
theorem decode_of_encode_eq {i : Instr} {w : Word} (hwf : i.wf = true) (h : encode i = w) : decode w = i := by
  rw [← h]
  exact encodedCommandDecodes i hwf

/-- Only an illegal word decodes to an ILLEGAL, which then carries that word. -/
theorem isIllegalWord_of_decode {w v : Word} (h : decode w = .illegal v) : isIllegalWord w = true := by
  obtain ⟨hwf, hword⟩ := decodedWordReencodes w
  rw [h] at hwf hword
  rwa [← hword]

/-- An illegal word is executed as ILLEGAL: STAT.ERR is 8 and every other field is as before (R129). -/
theorem exec_decode_of_illegal {w : Word} (h : isIllegalWord w = true) (s : State) :
    decode w = .illegal w ∧ exec (decode w) s = .next { s with stat := { s.stat with err := 8 } } := by
  rw [decode_of_illegal h]
  exact ⟨rfl, exec_illegal w s⟩

/-- Settles O4: the pairs are match and mask of the rows, and a word with a row's opcode is illegal where it differs under the
mask. -/
theorem reservedBitsAreIllegal : Obligations.ReservedBitsAreIllegal := by
  intro mm hmm w s htop hreserved
  obtain ⟨r, hr, rfl⟩ : ∃ r ∈ opcodeMap, (r.matchBits, r.mask) = mm := List.mem_map.1 hmm
  exact exec_decode_of_illegal ((isIllegalWord_of_row hr htop).2 hreserved) s

/-- Settles O6: a word that agrees with a row is legal, and only illegal words decode to an ILLEGAL. -/
theorem matchingWordsAreLegal : Obligations.MatchingWordsAreLegal := by
  intro mm hmm w hmatch v hdecode
  obtain ⟨r, hr, rfl⟩ : ∃ r ∈ opcodeMap, (r.matchBits, r.mask) = mm := List.mem_map.1 hmm
  have hlegal : isIllegalWord w = false := (legal_iff w).2 ⟨r, hr, hmatch⟩
  exact absurd (hlegal.symm.trans (isIllegalWord_of_decode hdecode)) (by decide)

/-- Settles O5: no row has the opcode 0xF. -/
theorem opcodeFIsIllegal : Obligations.OpcodeFIsIllegal :=
  fun _ s htop => exec_decode_of_illegal (isIllegalWord_of_opcodeF htop) s

/-- Settles O1: each word is that of its command (O2). -/
theorem sampleWordsDecode : Obligations.SampleWordsDecode := by
  unfold Obligations.SampleWordsDecode
  and_intros <;> exact decode_of_encode_eq rfl rfl

end Sys2Proof.Machine
end

section
/-! ### The expansions of a line, and a string loaded by host writes (R71 to R74) -/

namespace Sys2Proof.Machine

/-! What a host run of one step more does. -/

theorem run_succ {s t : State} (h : step s = .next t) (k : Nat) :
    Host.Core.run core (k + 1) s = Host.Core.run core k t := by
  have hcore : core.step s = .next t := h
  simp only [Host.Core.run, hcore]

/-- The bytes of a string written to consecutive entries from index `i` on. -/
def writeBytes (m : Memory) (i : Nat) : List Byte → Memory
  | [] => m
  | b :: bs => writeBytes (m.write i b) (i + 1) bs

/-- The entries of the string hold its bytes, every other entry is as before. -/
theorem writeBytes_read (bs : List Byte) (m : Memory) (i j : Nat) (h : m.wf = true) :
    (writeBytes m i bs).read? j = if j < i then m.read? j else (bs[j - i]?).or (m.read? j) := by
  induction bs generalizing m i with
  | nil => simp [writeBytes]
  | cons b bs ih =>
    rw [writeBytes, ih _ _ (m.write_wf i b h), m.read_write i j b h]
    rcases Nat.lt_trichotomy j i with hlt | rfl | hgt
    · simp [hlt, show j < i + 1 by omega, show i ≠ j by omega]
    · simp
    · have hidx : j - i = (j - (i + 1)) + 1 := by omega
      simp [hidx, show ¬ j < i by omega, show ¬ j < i + 1 by omega, show i ≠ j by omega]

theorem loadBytes_length (i : Nat) (bs : List Byte) : (loadBytes i bs).length = bs.length := by
  induction bs generalizing i with
  | nil => rfl
  | cons b bs ih => simp [loadBytes, ih]

/-- A byte written as a word is stored as it is (R38). -/
theorem step_write_byte {s : State} {a : Addr} {b : Byte} {i : Nat} {rest : List HostOp} (ha : admits s.cfg = true)
    (hmap : hostMap a = .ibuf i) (hp : s.pending = .write a (b.setWidth 16) :: rest) :
    step s = .next { s with pending := rest, ibuf := s.ibuf.write i b } := by
  have hbyte : (b.setWidth 16).setWidth 8 = b := BitVec.setWidth_setWidth_of_le b (by decide)
  rw [step_write_ibuf ha hmap hp, State.putIbuf, hbyte]
  rfl

/-- The writes of a string that fits the IBUF window leave it in IBUF and nothing else changed (R38, R73). -/
theorem run_loadBytes (bs : List Byte) {s : State} {i k : Nat} {rest : List HostOp} (ha : admits s.cfg = true)
    (hfits : i + bs.length ≤ 64) (hp : s.pending = loadBytes i bs ++ rest) :
    Host.Core.run core (bs.length + k) s =
      Host.Core.run core k { s with pending := rest, ibuf := writeBytes s.ibuf i bs } := by
  induction bs generalizing s i with
  | nil =>
    have hs : { s with pending := rest, ibuf := writeBytes s.ibuf i [] } = s := congrArg s.setPending hp.symm
    rw [List.length_nil, Nat.zero_add, hs]
  | cons b bs ih =>
    rw [List.length_cons] at hfits
    have hstep := step_write_byte ha (hostMap_ibuf i (by omega)) hp
    calc Host.Core.run core (bs.length + 1 + k) s
        = Host.Core.run core (bs.length + k + 1) s := by rw [Nat.add_right_comm]
      _ = Host.Core.run core (bs.length + k)
            { s with pending := loadBytes (i + 1) bs ++ rest, ibuf := s.ibuf.write i b } := run_succ hstep _
      _ = Host.Core.run core k { s with pending := rest, ibuf := writeBytes (s.ibuf.write i b) (i + 1) bs } :=
            ih ha (by omega) rfl

theorem step_write_ilen {s : State} {a : Addr} {v : Word} {rest : List HostOp} (ha : admits s.cfg = true)
    (hmap : hostMap a = .ilen) (hp : s.pending = .write a v :: rest) : step s = .next ((s.setPending rest).setIlen v) :=
  (step_of_pending ha hp).trans (hostWrite_ilen hmap v)

/-- The host operations of LOADSTR: the string goes into IBUF write by write, and the last write is that of ILEN (R73). -/
theorem run_loadstr (bytes : List Byte) {s : State} {v : Word} {rest : List HostOp} (ha : admits s.cfg = true)
    (hlen : bytes.length ≤ 64) (hp : s.pending = loadBytes 0 bytes ++ .write 0x03 v :: rest) :
    Host.Core.run core (bytes.length + 1) s =
      .next { s with pending := rest, ilen := v.setWidth 7, ibuf := writeBytes s.ibuf 0 bytes } := by
  have hlast : step { s with pending := .write 0x03 v :: rest, ibuf := writeBytes s.ibuf 0 bytes } =
      .next { s with pending := rest, ilen := v.setWidth 7, ibuf := writeBytes s.ibuf 0 bytes } :=
    step_write_ilen ha (hostMap_ilen rfl) rfl
  exact (run_loadBytes bytes ha (by omega) hp).trans (run_succ hlast 0)

/-- Settles O57: the run is `run_loadstr`, and what IBUF then holds is `writeBytes_read`. -/
theorem loadstrFillsInput : Obligations.LoadstrFillsInput := by
  intro s bytes rest hinv hlen
  have hops : expandLine (.loadstr bytes) =
      some (loadBytes 0 bytes ++ [.write 0x03 (BitVec.ofNat 16 bytes.length)]) := if_pos hlen
  have hread (i : Nat) : (writeBytes s.ibuf 0 bytes).read? i = (bytes[i]?).or (s.ibuf.read? i) :=
    writeBytes_read bytes s.ibuf 0 i hinv.ibuf_wf
  refine ⟨_, hops, { s with
      pending := rest
      ilen := (BitVec.ofNat 16 bytes.length).setWidth 7
      ibuf := writeBytes s.ibuf 0 bytes },
    ?run, ⟨?length, fun i hi => (hread i).trans ?entry⟩, fun i hi => (hread i).trans ?above, rfl⟩
  case run =>
    rw [List.length_append, loadBytes_length, List.append_assoc]
    exact run_loadstr bytes hinv.admitted hlen rfl
  case length =>
    change bytes.length = ((BitVec.ofNat 16 bytes.length).setWidth 7).toNat
    rw [BitVec.toNat_setWidth, BitVec.toNat_ofNat]
    omega
  case entry => rw [List.getElem?_eq_getElem hi, Option.some_or]
  case above => rw [List.getElem?_eq_none hi, Option.none_or]

/-- Settles O56: a command line and CMDW issue one word, PARITY the word of PCLR and one PFEED word per symbol. -/
theorem pseudoInstructionsExpand : Obligations.PseudoInstructionsExpand := by
  have hpclr : issueWord (encode .pclr) = .write 0x00 0x5000 := rfl
  have hpfeed (a : Sym) : issueWord (encode (.pfeed a)) = .write 0x00 (0x6000 ||| a.setWidth 16) := rfl
  refine ⟨fun _ => rfl, fun _ => rfl, fun syms => ?_⟩
  simp only [expandLine, hpclr, hpfeed]

end Sys2Proof.Machine
end

section
/-! ### The field: multiplication is linear in each operand and follows the powers of α (R75, R82)

The product and the reduction are sums over bits, so multiplication is linear in each operand. Linearity leaves the associativity
of a factor α to check on the six basis elements only; with it the product of two powers of α adds their exponents, and the other
laws follow, for every element is 0 or a power of α. -/

namespace Sys2Proof.Machine

/-! #### Linearity -/

/-- To add a mask where a bit is set is linear in the bit and in what it is added to. -/
theorem addMask_xor {n : Nat} (b c : Bool) (v w m : BitVec n) :
    (if (b ^^ c) = true then v ^^^ w ^^^ m else v ^^^ w) =
      (if b = true then v ^^^ m else v) ^^^ (if c = true then w ^^^ m else w) := by
  cases b <;> cases c
  · rfl
  · exact BitVec.xor_assoc v w m
  · change v ^^^ w ^^^ m = v ^^^ m ^^^ w
    ac_rfl
  · calc v ^^^ w = v ^^^ w ^^^ (m ^^^ m) := by rw [BitVec.xor_self, BitVec.xor_zero]
      _ = v ^^^ m ^^^ (w ^^^ m) := by ac_rfl

theorem carrylessMul_xor_left (a b c : Sym) : carrylessMul (a ^^^ b) c = carrylessMul a c ^^^ carrylessMul b c := by
  have hstart : (0 : BitVec 11) = 0 ^^^ 0 := rfl
  unfold carrylessMul
  conv_lhs => rw [hstart]
  refine List.foldl_hom₂ _ (· ^^^ ·) _ _ _ 0 0 fun v w i => ?_
  cases c.getLsbD i
  · rfl
  · simp only [if_true, BitVec.setWidth_xor, BitVec.shiftLeft_xor_distrib]
    ac_rfl

theorem carrylessMul_xor_right (a b c : Sym) : carrylessMul a (b ^^^ c) = carrylessMul a b ^^^ carrylessMul a c := by
  have hstart : (0 : BitVec 11) = 0 ^^^ 0 := rfl
  unfold carrylessMul
  conv_lhs => rw [hstart]
  refine List.foldl_hom₂ _ (· ^^^ ·) _ _ _ 0 0 fun v w i => ?_
  rw [BitVec.getLsbD_xor, addMask_xor]

theorem polyReduce_xor (poly : BitVec 7) (v w : BitVec 11) :
    polyReduce poly (v ^^^ w) = polyReduce poly v ^^^ polyReduce poly w := by
  unfold polyReduce
  refine List.foldl_hom₂ _ (· ^^^ ·) _ _ _ v w fun v w i => ?_
  rw [BitVec.getLsbD_xor, addMask_xor]

theorem fieldMul_xor_left (poly : BitVec 7) (a b c : Sym) :
    fieldMul poly (a ^^^ b) c = fieldMul poly a c ^^^ fieldMul poly b c := by
  simp only [fieldMul, carrylessMul_xor_left, polyReduce_xor, BitVec.setWidth_xor]

theorem fieldMul_xor_right (poly : BitVec 7) (a b c : Sym) :
    fieldMul poly a (b ^^^ c) = fieldMul poly a b ^^^ fieldMul poly a c := by
  simp only [fieldMul, carrylessMul_xor_right, polyReduce_xor, BitVec.setWidth_xor]

theorem zero_fieldMul (poly : BitVec 7) (a : Sym) : fieldMul poly 0 a = 0 := by
  have h := fieldMul_xor_left poly 0 0 a
  rwa [BitVec.xor_self, BitVec.xor_self] at h

theorem fieldMul_zero (poly : BitVec 7) (a : Sym) : fieldMul poly a 0 = 0 := by
  have h := fieldMul_xor_right poly a 0 0
  rwa [BitVec.xor_self, BitVec.xor_self] at h

/-- What holds of the six basis elements and of every sum of elements it holds of, holds of every element. -/
theorem sym_induction {P : Sym → Prop} (hzero : P 0) (hxor : ∀ a b, P a → P b → P (a ^^^ b))
    (hbasis : ∀ k : Fin 6, P ((1 : Sym) <<< k.val)) (a : Sym) : P a := by
  have hsum : (List.finRange 6).foldl (fun (v : Sym) k => if a[k] then v ^^^ (1 : Sym) <<< k.val else v) 0 = a := by
    revert a
    decide +kernel
  rw [← hsum]
  refine List.foldlRecOn _ _ hzero fun v hv k _ => ?_
  split
  · exact hxor v _ hv (hbasis k)
  · exact hv

/-! #### Powers of α -/

/-- α^k · (α^l · α) = (α^k · α^l) · α for the basis elements α^0 to α^5, a fixed check for each polynomial. -/
theorem fieldMul_mul_two_basis : ∀ poly ∈ primitivePolys, ∀ k l : Fin 6,
    fieldMul poly ((1 : Sym) <<< k.val) (fieldMul poly ((1 : Sym) <<< l.val) 2) =
      fieldMul poly (fieldMul poly ((1 : Sym) <<< k.val) ((1 : Sym) <<< l.val)) 2 := by decide +kernel

/-- A factor α can be taken last. -/
theorem fieldMul_mul_two {poly : BitVec 7} (hp : poly ∈ primitivePolys) (a b : Sym) :
    fieldMul poly a (fieldMul poly b 2) = fieldMul poly (fieldMul poly a b) 2 := by
  induction a using sym_induction with
  | hzero => simp only [zero_fieldMul]
  | hxor a a' ha ha' => simp only [fieldMul_xor_left, ha, ha']
  | hbasis k =>
    induction b using sym_induction with
    | hzero => simp only [zero_fieldMul, fieldMul_zero]
    | hxor b b' hb hb' => simp only [fieldMul_xor_left, fieldMul_xor_right, hb, hb']
    | hbasis l => exact fieldMul_mul_two_basis poly hp k l

theorem fieldMul_one (poly : BitVec 7) (a : Sym) : fieldMul poly a 1 = a := by
  simp [fieldMul, polyReduce, carrylessMul, List.range_succ]

/-- The product of two powers of α is the power of the sum of their exponents. -/
theorem fieldMul_alphaPow {poly : BitVec 7} (hp : poly ∈ primitivePolys) (i j : Nat) :
    fieldMul poly (alphaPow poly i) (alphaPow poly j) = alphaPow poly (i + j) := by
  induction j with
  | zero => exact fieldMul_one poly _
  | succ j ih => rw [alphaPow, fieldMul_mul_two hp, ih, ← Nat.add_assoc, alphaPow]

/-- The exponents of α repeat with period 63 (R78). -/
theorem alphaPow_mod {poly : BitVec 7} (hp : poly ∈ primitivePolys) (n : Nat) :
    alphaPow poly (n % 63) = alphaPow poly n := by
  rw [alphaPow_eq_iterate, alphaPow_eq_iterate, ← minimalPeriod_timesAlpha hp, Function.iterate_mod_minimalPeriod_eq]

/-- Every element but 0 is a power of α. -/
theorem exists_alphaPow {poly : BitVec 7} (hp : poly ∈ primitivePolys) {a : Sym} (ha : a ≠ 0) :
    ∃ i : Sym, i.toNat < 63 ∧ a = alphaPow poly i.toNat :=
  (eq_zero_or_alphaPow hp a).resolve_left ha

/-! #### The laws of the field (R82) -/

theorem fieldMul_comm {poly : BitVec 7} (hp : poly ∈ primitivePolys) (a b : Sym) :
    fieldMul poly a b = fieldMul poly b a := by
  rcases eq_zero_or_alphaPow hp a with rfl | ⟨i, -, rfl⟩
  · simp only [zero_fieldMul, fieldMul_zero]
  rcases eq_zero_or_alphaPow hp b with rfl | ⟨j, -, rfl⟩
  · simp only [zero_fieldMul, fieldMul_zero]
  rw [fieldMul_alphaPow hp, fieldMul_alphaPow hp, Nat.add_comm]

theorem fieldMul_assoc {poly : BitVec 7} (hp : poly ∈ primitivePolys) (a b c : Sym) :
    fieldMul poly (fieldMul poly a b) c = fieldMul poly a (fieldMul poly b c) := by
  rcases eq_zero_or_alphaPow hp a with rfl | ⟨i, -, rfl⟩
  · simp only [zero_fieldMul]
  rcases eq_zero_or_alphaPow hp b with rfl | ⟨j, -, rfl⟩
  · simp only [zero_fieldMul, fieldMul_zero]
  rcases eq_zero_or_alphaPow hp c with rfl | ⟨k, -, rfl⟩
  · simp only [fieldMul_zero]
  simp only [fieldMul_alphaPow hp, Nat.add_assoc]

theorem one_fieldMul {poly : BitVec 7} (hp : poly ∈ primitivePolys) (a : Sym) : fieldMul poly 1 a = a := by
  rw [fieldMul_comm hp, fieldMul_one]

/-- A product of powers of α is a power of α, so it is not 0. -/
theorem fieldMul_ne_zero {poly : BitVec 7} (hp : poly ∈ primitivePolys) {a b : Sym} (ha : a ≠ 0) (hb : b ≠ 0) :
    fieldMul poly a b ≠ 0 := by
  obtain ⟨i, -, rfl⟩ := exists_alphaPow hp ha
  obtain ⟨j, -, rfl⟩ := exists_alphaPow hp hb
  rw [fieldMul_alphaPow hp, ← alphaPow_mod hp]
  exact alphaPow_ne_zero hp (Nat.mod_lt _ (by decide)).le

/-! #### Multiplication through built tables (R81) -/

theorem gfMul_zero_left (log alog : Vector Sym 64) (b : Sym) : gfMul log alog 0 b = 0 :=
  if_pos (.inl rfl)

theorem gfMul_zero_right (log alog : Vector Sym 64) (a : Sym) : gfMul log alog a 0 = 0 :=
  if_pos (.inr rfl)

theorem gfMul_of_ne_zero (log alog : Vector Sym 64) {a b : Sym} (ha : a ≠ 0) (hb : b ≠ 0) :
    gfMul log alog a b =
      tableGet alog (BitVec.ofNat 6 (((tableGet log a).toNat + (tableGet log b).toNat) % 63)) :=
  if_neg (not_or.2 ⟨ha, hb⟩)

/-- An entry of ALOG by an exponent that is reduced, as `GfMul` and the inverse take it. -/
theorem TablesBuilt.alog_mod {poly : BitVec 7} (hp : poly ∈ primitivePolys) {log alog : Vector Sym 64}
    (h : TablesBuilt poly log alog) (n : Nat) : tableGet alog (BitVec.ofNat 6 (n % 63)) = alphaPow poly n := by
  have hn : n % 63 < 63 := Nat.mod_lt _ (by decide)
  rw [h.alog_pow, BitVec.toNat_ofNat, Nat.mod_eq_of_lt (by omega), alphaPow_mod hp]

/-- LOG gives a non-zero element's exponent (R78). -/
theorem TablesBuilt.alphaPow_log {poly : BitVec 7} (hp : poly ∈ primitivePolys) {log alog : Vector Sym 64}
    (h : TablesBuilt poly log alog) {a : Sym} (ha : a ≠ 0) :
    (tableGet log a).toNat < 63 ∧ alphaPow poly (tableGet log a).toNat = a := by
  obtain ⟨i, hi, rfl⟩ := exists_alphaPow hp ha
  rw [h.log_pow i hi]
  exact ⟨hi, rfl⟩

/-- `GfMul` over built tables is the field's multiplication (R82). -/
theorem TablesBuilt.gfMul_eq {poly : BitVec 7} (hp : poly ∈ primitivePolys) {log alog : Vector Sym 64}
    (h : TablesBuilt poly log alog) (a b : Sym) : gfMul log alog a b = fieldMul poly a b := by
  by_cases ha : a = 0
  · rw [ha, gfMul_zero_left, zero_fieldMul]
  by_cases hb : b = 0
  · rw [hb, gfMul_zero_right, fieldMul_zero]
  obtain ⟨-, hloga⟩ := h.alphaPow_log hp ha
  obtain ⟨-, hlogb⟩ := h.alphaPow_log hp hb
  rw [gfMul_of_ne_zero log alog ha hb, h.alog_mod hp, ← fieldMul_alphaPow hp, hloga, hlogb]

/-- α^(63 - LOG a) is the inverse of a (R82). -/
theorem TablesBuilt.fieldMul_inverse {poly : BitVec 7} (hp : poly ∈ primitivePolys) {log alog : Vector Sym 64}
    (h : TablesBuilt poly log alog) {a : Sym} (ha : a ≠ 0) :
    fieldMul poly a (tableGet alog (BitVec.ofNat 6 ((63 - (tableGet log a).toNat) % 63))) = 1 := by
  obtain ⟨hlt, hlog⟩ := h.alphaPow_log hp ha
  obtain ⟨h63, -, -⟩ := alphaPow_order_checks poly hp
  calc fieldMul poly a (tableGet alog (BitVec.ofNat 6 ((63 - (tableGet log a).toNat) % 63)))
      = fieldMul poly (alphaPow poly (tableGet log a).toNat) (alphaPow poly (63 - (tableGet log a).toNat)) := by
        rw [hlog, h.alog_mod hp]
    _ = alphaPow poly ((tableGet log a).toNat + (63 - (tableGet log a).toNat)) := fieldMul_alphaPow hp _ _
    _ = 1 := by rw [Nat.add_sub_cancel' hlt.le, h63]

/-- Settles O14: over built tables `GfMul` is the field's multiplication (`TablesBuilt.gfMul_eq`), and each law is the field's. -/
theorem gfMulLaws : Obligations.GfMulLaws := by
  intro s hinv hready a b c
  have hp := admits_poly hinv.admitted
  have hbuilt := hinv.ready_tables hready
  simp only [hbuilt.gfMul_eq hp]
  refine ⟨trivial, fieldMul_comm hp a b, fieldMul_assoc hp a b c, fieldMul_xor_right _ a b c, one_fieldMul hp a,
    zero_fieldMul _ a, fun h0 => ?_, fun ha => hbuilt.fieldMul_inverse hp ha⟩
  by_contra hne
  obtain ⟨ha, hb⟩ := not_or.1 hne
  exact fieldMul_ne_zero hp ha hb h0

end Sys2Proof.Machine
end

section
/-! ### What the commands that use the tables return (R77 to R86, R88, R94) -/

namespace Sys2Proof.Machine

/-- The generator leaves the same tables whatever it found (R77, R83). -/
theorem builtTables_irrelevant {poly : BitVec 7} (hp : poly ∈ primitivePolys) (log alog log' alog' : Vector Sym 64) :
    builtTables poly log alog = builtTables poly log' alog' := by
  obtain ⟨hlog, halog⟩ := (builtTables_built hp log' alog').unique hp (builtTables_built hp log alog)
  exact Prod.ext hlog halog

/-- Settles O9: GFINIT is the generator, which builds the tables whatever it finds (`builtTables_built`). -/
theorem gfinitResult : Obligations.GfinitResult :=
  fun s hadmits => ⟨_, exec_gfinit s, builtTables_built (admits_poly hadmits) s.log s.alog, rfl, rfl, rfl, rfl,
    commandsKeepInput _ _ _ (exec_gfinit s), onlyEncodeWritesOutput .gfinit _ _ nofun (exec_gfinit s)⟩

/-- Settles O10: the tables do not depend on what GFINIT found, so one run of the generator over zero tables gives them. -/
theorem defaultTables : Obligations.DefaultTables := by
  intro s hpoly
  have hrun : builtTables s.cfg.gfPoly s.log s.alog = builtTables 0x43 (Vector.replicate 64 0) (Vector.replicate 64 0) := by
    rw [hpoly]
    exact builtTables_irrelevant (by decide) _ _ _ _
  refine ⟨_, exec_gfinit s, ?alog, ?log⟩
  case alog =>
    rw [State.complete_alog, State.genTables_alog, hrun]
    decide +kernel
  case log =>
    rw [State.complete_log, State.genTables_log, hrun]
    decide +kernel

/-- What a command that looks a value up in the tables leaves, whatever the value (R17, R80). -/
theorem State.Inv.tableValue_frame {s : State} (h : s.Inv) (w : Word) :
    (s.ensureTables.returnValue w).stat.err = 0 ∧ (s.ensureTables.returnValue w).acc = s.acc ∧
      TablesEnsured s (s.ensureTables.returnValue w) ∧ InputKept s (s.ensureTables.returnValue w) ∧
      OutputKept s (s.ensureTables.returnValue w) :=
  ⟨rfl, by simp, h.ensureTables_ensured.of_kept ⟨rfl, rfl, rfl⟩, by constructor <;> simp, by constructor <;> simp⟩

/-- Settles O11: LOG[0] is 0, and any other entry is its element's exponent (`TablesBuilt.alphaPow_log`). -/
theorem gflogResult : Obligations.GflogResult := by
  intro a s hinv
  have hbuilt := hinv.ensureTables_ensured.built
  refine ⟨_, exec_gflog a s, fun hzero => ?zero, fun ha => ?power, hinv.tableValue_frame _⟩
  case zero =>
    rw [State.returnValue_res, hzero, hbuilt.log_zero]
    rfl
  case power =>
    rw [State.returnValue_res, BitVec.toNat_setWidth_of_le (by decide)]
    exact hbuilt.alphaPow_log (admits_poly hinv.admitted) ha

/-- Settles O12: ALOG holds the powers of α at all 64 indices. -/
theorem gfexpResult : Obligations.GfexpResult := by
  intro a s hinv
  refine ⟨_, exec_gfexp a s, ?_, hinv.tableValue_frame _⟩
  rw [State.returnValue_res, hinv.ensureTables_ensured.built.alog_pow]

/-- `GfMul` over the tables as first use leaves them is the field's multiplication (R80, R82). -/
theorem State.Inv.ensureTables_mul {s : State} (h : s.Inv) : s.ensureTables.mul = fieldMul s.cfg.gfPoly := by
  funext a b
  exact h.ensureTables_ensured.built.gfMul_eq (admits_poly h.admitted) a b

/-- Settles O13: `GfMul` over the tables as first use leaves them is the field's multiplication. -/
theorem gfmulResult : Obligations.GfmulResult := by
  intro a b s hinv
  refine ⟨_, exec_gfmul a b s, ?_, hinv.tableValue_frame _⟩
  rw [State.returnValue_res, ← hinv.ensureTables_mul, State.mul]

/-- Settles O16: PFEED is the LFSR step with `GfMul` over the tables as first use leaves them, the field's multiplication. -/
theorem pfeedResult : Obligations.PfeedResult := by
  intro a s hinv
  have hexec := exec_pfeed a s
  rw [hinv.ensureTables_mul] at hexec
  exact ⟨_, hexec, rfl, rfl, by simp, hinv.ensureTables_ensured.of_kept ⟨rfl, rfl, rfl⟩,
    commandsKeepInput _ _ _ hexec, onlyEncodeWritesOutput (.pfeed a) _ _ nofun hexec⟩

end Sys2Proof.Machine
end

section
/-! ### Building the tables first changes no result (R80, R83, R153)

GFINIT leaves what first-use initialisation leaves, with ERR 0. No command reads ERR, and a command run after the initialisation
leaves what it leaves without it, initialised. -/

namespace Sys2Proof.Machine

/-! #### First-use initialisation and the other updates of the state -/

/-- The generator commutes with an update that touches neither the polynomial nor the tables. -/
theorem State.genTables_comm {s : State} {f : State → State}
    (hset : ∀ log alog, f (s.setTables log alog) = (f s).setTables log alog) (hcfg : (f s).cfg = s.cfg)
    (hlog : (f s).log = s.log) (halog : (f s).alog = s.alog) : (f s).genTables = f s.genTables := by
  simp only [State.genTables, hset, hcfg, hlog, halog]

/-- First-use initialisation commutes with an update that does not touch what it reads and writes. -/
theorem State.ensureTables_comm {s : State} {f : State → State}
    (hset : ∀ log alog, f (s.setTables log alog) = (f s).setTables log alog) (hcfg : (f s).cfg = s.cfg)
    (hkept : TablesKept s (f s)) : (f s).ensureTables = f s.ensureTables := by
  obtain ⟨hlog, halog, hready⟩ := hkept
  rcases s.ensureTables_cases with ⟨hs, he⟩ | ⟨hs, he⟩ <;> rw [he]
  · exact State.ensureTables_of_ready _ (hready.trans hs)
  · rw [State.ensureTables_of_not_ready _ (hready.trans hs), State.genTables_comm hset hcfg hlog halog]

@[simp] theorem State.ensureTables_setErr (s : State) (e : ErrCode) :
    (s.setErr e).ensureTables = s.ensureTables.setErr e :=
  State.ensureTables_comm (f := (·.setErr e)) (fun _ _ => rfl) rfl ⟨rfl, rfl, rfl⟩

@[simp] theorem State.ensureTables_setAcc (s : State) (a : Vector Sym 4) :
    (s.setAcc a).ensureTables = s.ensureTables.setAcc a :=
  State.ensureTables_comm (f := (·.setAcc a)) (fun _ _ => rfl) rfl ⟨rfl, rfl, rfl⟩

@[simp] theorem State.ensureTables_returnValue (s : State) (w : Word) :
    (s.returnValue w).ensureTables = s.ensureTables.returnValue w :=
  State.ensureTables_comm (f := (·.returnValue w)) (fun _ _ => rfl) rfl ⟨rfl, rfl, rfl⟩

@[simp] theorem State.ensureTables_complete (s : State) : s.complete.ensureTables = s.ensureTables.complete :=
  s.ensureTables_setErr .none

@[simp] theorem State.ensureTables_raise (s : State) (e : ErrCode) : (s.raise e).ensureTables = s.ensureTables.raise e :=
  s.ensureTables_setErr e

@[simp] theorem State.ensureTables_ensureTables (s : State) : s.ensureTables.ensureTables = s.ensureTables :=
  State.ensureTables_of_ready _ (by simp)

/-- GFINIT's generator leaves the state first-use initialisation leaves (R80, R83). -/
theorem State.Inv.genTables_eq_ensureTables {s : State} (h : s.Inv) : s.genTables = s.ensureTables := by
  rcases s.ensureTables_cases with ⟨hready, he⟩ | ⟨-, he⟩ <;> rw [he]
  obtain ⟨hlog, halog, -⟩ := h.genTables_kept hready
  have hsame : s.setTables s.log s.alog = s := by
    rw [State.setTables, ← hready]
  calc s.genTables = s.setTables s.genTables.log s.genTables.alog := rfl
    _ = s := by rw [hlog, halog, hsame]

/-! #### ERR is written at a command's end and read by none (R19, R133 to R135) -/

theorem State.setErr_complete (s : State) (e : ErrCode) : (s.setErr e).complete = s.complete := rfl

theorem State.setErr_raise (s : State) (e e' : ErrCode) : (s.setErr e).raise e' = s.raise e' := rfl

theorem State.setErr_returnValue (s : State) (e : ErrCode) (w : Word) : (s.setErr e).returnValue w = s.returnValue w := rfl

theorem State.setErr_setAcc (s : State) (e : ErrCode) (a : Vector Sym 4) :
    (s.setErr e).setAcc a = (s.setAcc a).setErr e := rfl

theorem State.setErr_genTables (s : State) (e : ErrCode) : (s.setErr e).genTables = s.genTables.setErr e :=
  State.genTables_comm (f := (·.setErr e)) (fun _ _ => rfl) rfl rfl rfl

theorem State.setErr_raiseEncode (s : State) (e e' : ErrCode) : (s.setErr e).raiseEncode e' = s.raiseEncode e' := rfl

theorem State.setErr_assemble (s : State) (e : ErrCode) (ty : BarcodeType) (body : List Digit) :
    (s.setErr e).assemble ty body = s.assemble ty body := by
  unfold State.assemble
  split <;> rfl

/-- What a command answers does not depend on the ERR it finds. -/
theorem exec_setErr (i : Instr) (s : State) (e : ErrCode) : exec i (s.setErr e) = exec i s := by
  cases i with
  | gfinit => rw [exec_gfinit, exec_gfinit, State.setErr_genTables, State.setErr_complete]
  | gflog | gfexp | gfmul => simp [State.setErr_returnValue]
  | pfeed => simp [State.setErr_setAcc, State.setErr_complete, State.mul]
  | clookup c =>
    cases hc : charIndex c with
    | none => simp [exec_clookup_of_none hc, State.setErr_raise]
    | some i => simp [exec_clookup_of_some hc, State.setErr_returnValue]
  | nenc c =>
    cases hc : isDigit c with
    | false => simp [exec_nenc_of_not_digit hc, State.setErr_raise]
    | true => simp [exec_nenc_of_digit hc, State.setErr_returnValue]
  | cenc c =>
    cases hc : cEnc s.cfg c with
    | none => rw [exec_cenc_of_none hc, exec_cenc_of_none (s := s.setErr e) hc, State.setErr_raise]
    | some t => rw [exec_cenc_of_some hc, exec_cenc_of_some (s := s.setErr e) hc, State.setErr_returnValue]
  | encode =>
    simp only [exec, execEncode, State.ensureTables_setErr, State.setErr_cfg, State.setErr_ilen, State.setErr_ibuf,
      State.setErr_raiseEncode, State.setErr_assemble]
  | _ => rfl

/-! #### A command after the initialisation -/

theorem exec_encode_ensureTables (s : State) : exec .encode s.ensureTables = exec .encode s := by
  simp only [exec, execEncode, State.ensureTables_ensureTables]

/-- A command run after first-use initialisation leaves what it leaves without it, initialised. -/
theorem exec_ensureTables {i : Instr} {s t : State} (hinv : s.Inv) (h : exec i s = .next t) :
    exec i s.ensureTables = .next t.ensureTables := by
  cases i with
  | gfinit =>
    cases h
    simp [hinv.genTables_eq_ensureTables, hinv.ensureTables.genTables_eq_ensureTables]
  | clookup c =>
    cases hc : charIndex c with
    | none => rw [exec_clookup_of_none hc] at h ⊢; cases h; simp
    | some i => rw [exec_clookup_of_some hc] at h ⊢; cases h; simp
  | nenc c =>
    cases hc : isDigit c with
    | false => rw [exec_nenc_of_not_digit hc] at h ⊢; cases h; simp
    | true => rw [exec_nenc_of_digit hc] at h ⊢; cases h; simp
  | cenc c =>
    cases hc : cEnc s.cfg c with
    | none => rw [exec_cenc_of_none hc] at h; cases h; simp [exec_cenc_of_none, hc]
    | some t => rw [exec_cenc_of_some hc] at h; cases h; simp [exec_cenc_of_some (t := t), hc]
  | encode =>
    have hready : t.stat.ready = true := by cases exec_encode_effect h <;> simp
    rw [exec_encode_ensureTables, h, State.ensureTables_of_ready t hready]
  | _ => cases h; simp

/-- Settles O47: GFINIT leaves the first-use state with ERR 0; ERR is not read (`exec_setErr`), and the initialisation commutes with
the command (`exec_ensureTables`). -/
theorem firstUseIsInvisible : Obligations.FirstUseIsInvisible := by
  intro i s t hinv h
  have hrun : exec i s.genTables.complete = .next t.ensureTables := by
    rw [State.complete, exec_setErr, hinv.genTables_eq_ensureTables, exec_ensureTables hinv h]
  have hinput : InputKept t t.ensureTables := by constructor <;> simp
  exact ⟨_, _, exec_gfinit s, hrun, by simp [hinput]⟩

end Sys2Proof.Machine
end

section
/-! ### The parity accumulator: its cells, its step and its check symbols (R87 to R95) -/

namespace Sys2Proof.Machine

/-- An accumulator is its four cells. -/
theorem acc_eq_cells (acc : Vector Sym 4) : acc = #v[acc[0], acc[1], acc[2], acc[3]] := by
  ext i hi
  match i, hi with
  | 0, _ | 1, _ | 2, _ | 3, _ => rfl

/-- The check symbols are the cells, ACC[3] first (R90). -/
theorem checkSym_eq_getD (acc : Vector Sym 4) (k : BitVec 2) : checkSym acc k = acc.toList.reverse.getD k.toNat 0 := by
  have hk : k.toNat < 4 := k.isLt
  simp [checkSym, hk]

/-- The cells after a step (R88). -/
theorem lfsrNext_toList (mul : Sym → Sym → Sym) (coeff acc : Vector Sym 4) (d : Sym) :
    (lfsrNext mul coeff acc d).toList =
      [mul (acc[3] ^^^ d) coeff[0], acc[0] ^^^ mul (acc[3] ^^^ d) coeff[1], acc[1] ^^^ mul (acc[3] ^^^ d) coeff[2],
        acc[2] ^^^ mul (acc[3] ^^^ d) coeff[3]] := rfl

/-- To feed the symbol ACC[3] holds is to shift a 0 in: the symbol that is multiplied is 0 (R88). -/
theorem lfsrNext_top {mul : Sym → Sym → Sym} (hmul : ∀ c, mul 0 c = 0) (coeff : Vector Sym 4) (a b c d : Sym) :
    lfsrNext mul coeff #v[a, b, c, d] d = #v[0, a, b, c] := by
  have hm : #v[a, b, c, d][3] ^^^ d = 0 := BitVec.xor_self
  have hkeep : ∀ x : Sym, x ^^^ 0 = x := fun _ => BitVec.xor_zero
  apply Vector.toList_inj.1
  simp only [lfsrNext_toList, hm, hmul, hkeep]
  rfl

/-- A PFEED of what ACC[3] holds shifts a 0 into the accumulator, whatever the tables hold (R81, R94). -/
theorem exec_pfeed_top {s : State} {a b c d : Sym} (h : s.acc = #v[a, b, c, d]) :
    ∃ t, exec (.pfeed d) s = .next t ∧ t.acc = #v[0, a, b, c] := by
  refine ⟨_, exec_pfeed d s, ?_⟩
  rw [State.complete_acc, State.setAcc_acc, h]
  exact lfsrNext_top (gfMul_zero_left _ _) _ a b c d

/-! #### The statements -/

/-- Settles O18: each of the four PFEEDs shifts a 0 in (`exec_pfeed_top`), and ACC[3] then holds the next check symbol. -/
theorem ownCheckSymbolsClear : Obligations.OwnCheckSymbolsClear := by
  intro s
  obtain ⟨t₁, h₁, ha₁⟩ := exec_pfeed_top (acc_eq_cells s.acc)
  obtain ⟨t₂, h₂, ha₂⟩ := exec_pfeed_top ha₁
  obtain ⟨t₃, h₃, ha₃⟩ := exec_pfeed_top ha₂
  obtain ⟨t₄, h₄, ha₄⟩ := exec_pfeed_top ha₃
  exact ⟨t₁, t₂, t₃, t₄, h₁, h₂, h₃, h₄, congrArg Vector.toList ha₄⟩

/-- Settles O15: PCLR writes ACC and ERR alone. -/
theorem pclrResult : Obligations.PclrResult :=
  fun s => ⟨_, exec_pclr s, rfl, rfl, rfl, commandsKeepInput _ _ _ (exec_pclr s),
    onlyEncodeWritesOutput .pclr _ _ nofun (exec_pclr s), rfl, rfl, rfl⟩

/-- Settles O17: PREAD returns a check symbol, and those are the cells from ACC[3] down (`checkSym_eq_getD`). -/
theorem preadResult : Obligations.PreadResult := by
  intro k s
  have hres : (s.returnValue ((checkSym s.acc k).setWidth 16)).res = (s.acc.toList.reverse.getD k.toNat 0).setWidth 16 := by
    rw [State.returnValue_res, checkSym_eq_getD]
  exact ⟨_, exec_pread k s, hres, rfl, s.returnValue_frame _⟩

/-- Settles O20, a fixed product over the default field. -/
theorem defaultGeneratorFactors : Obligations.DefaultGeneratorFactors := by
  unfold Obligations.DefaultGeneratorFactors
  decide +kernel

end Sys2Proof.Machine
end

section
/-! ### The parity of a sequence is a remainder modulo the generator polynomial (R92)

Sums of coefficient lists are associative. A step of the LFSR multiplies the sum of the product so far and the
accumulator by x and adds the new symbol at x^4; induction on the sequence, its last symbol taken off, gives the remainder. -/

namespace Sys2Proof.Machine

/-! #### Sums of polynomials -/

theorem nil_polyAdd (p : List Sym) : polyAdd [] p = p := by
  cases p <;> rfl

theorem polyAdd_nil (p : List Sym) : polyAdd p [] = p := by
  cases p <;> rfl

theorem polyAdd_assoc (p q r : List Sym) : polyAdd (polyAdd p q) r = polyAdd p (polyAdd q r) := by
  induction p generalizing q r with
  | nil => rw [nil_polyAdd, nil_polyAdd]
  | cons a p ih =>
    cases q with
    | nil => rw [polyAdd_nil, nil_polyAdd]
    | cons b q =>
      cases r with
      | nil => rw [polyAdd_nil, polyAdd_nil]
      | cons c r => simp only [polyAdd, ih, BitVec.xor_assoc]

/-- Multiplication by x distributes over a sum. -/
theorem zero_cons_polyAdd (p q : List Sym) : polyAdd (0 :: p) (0 :: q) = 0 :: polyAdd p q := by
  rw [polyAdd, BitVec.xor_self]
  rfl

/-! #### One symbol more -/

theorem lfsrFeed_concat (mul : Sym → Sym → Sym) (coeff acc : Vector Sym 4) (ds : List Sym) (d : Sym) :
    lfsrFeed mul coeff acc (ds ++ [d]) = lfsrNext mul coeff (lfsrFeed mul coeff acc ds) d := by
  induction ds generalizing acc with
  | nil => rfl
  | cons e ds ih => exact ih _

/-- The multiple m · g(x) of the generator polynomial (R92). -/
def generatorMultiple (poly : BitVec 7) (coeff : Vector Sym 4) (m : Sym) : List Sym :=
  [fieldMul poly m coeff[0], fieldMul poly m coeff[1], fieldMul poly m coeff[2], fieldMul poly m coeff[3], m]

theorem timesGenerator_concat (poly : BitVec 7) (coeff : Vector Sym 4) (p ms : List Sym) (m : Sym) :
    timesGenerator poly coeff p (ms ++ [m]) =
      polyAdd (0 :: timesGenerator poly coeff p ms) (generatorMultiple poly coeff m) := by
  induction ms generalizing p with
  | nil => rfl
  | cons n ms ih => exact ih _

/-- An LFSR step takes the multiple m · g(x) of the generator off, m the sum of ACC[3] and the symbol `d`: what is left is the
accumulator times x, with `d` added at x^4 (R88). -/
theorem generatorMultiple_polyAdd_lfsrNext (poly : BitVec 7) (coeff acc : Vector Sym 4) (d : Sym) :
    polyAdd (generatorMultiple poly coeff (acc[3] ^^^ d)) (lfsrNext (fieldMul poly) coeff acc d).toList =
      polyAdd (0 :: acc.toList) [0, 0, 0, 0, d] := by
  have hcancel : ∀ a b : Sym, b ^^^ (a ^^^ b) = a := fun a b => by
    rw [BitVec.xor_comm a b, ← BitVec.xor_assoc, BitVec.xor_self, BitVec.zero_xor]
  have hcells : acc.toList = [acc[0], acc[1], acc[2], acc[3]] := congrArg Vector.toList (acc_eq_cells acc)
  rw [hcells]
  simp only [lfsrNext_toList, generatorMultiple, polyAdd, BitVec.ofNat_eq_ofNat, BitVec.xor_self, BitVec.xor_zero, hcancel]

/-- What has been fed so far is a multiple of the generator plus the accumulator. -/
theorem lfsrFeed_remainder (poly : BitVec 7) (coeff : Vector Sym 4) (syms : List Sym) :
    ∃ q : List Sym, q.length = syms.length ∧
      polyAdd (timesGenerator poly coeff [] q) (lfsrFeed (fieldMul poly) coeff accZero syms).toList =
        [0, 0, 0, 0] ++ syms.reverse := by
  induction syms using List.reverseRecOn with
  | nil => exact ⟨[], rfl, rfl⟩
  | append_singleton ds d ih =>
    obtain ⟨q, hlen, hq⟩ := ih
    generalize hacc : lfsrFeed (fieldMul poly) coeff accZero ds = acc at hq
    refine ⟨q ++ [acc[3] ^^^ d], by simp [hlen], ?_⟩
    calc polyAdd (timesGenerator poly coeff [] (q ++ [acc[3] ^^^ d]))
          (lfsrFeed (fieldMul poly) coeff accZero (ds ++ [d])).toList
        = polyAdd (polyAdd (0 :: timesGenerator poly coeff [] q) (generatorMultiple poly coeff (acc[3] ^^^ d)))
            (lfsrNext (fieldMul poly) coeff acc d).toList := by
          rw [timesGenerator_concat, lfsrFeed_concat, hacc]
      _ = polyAdd (0 :: polyAdd (timesGenerator poly coeff [] q) acc.toList) [0, 0, 0, 0, d] := by
          rw [polyAdd_assoc, generatorMultiple_polyAdd_lfsrNext, ← polyAdd_assoc, zero_cons_polyAdd]
      _ = polyAdd ([0, 0, 0, 0, 0] ++ ds.reverse) [0, 0, 0, 0, d] := by
          rw [hq]
          rfl
      _ = [0, 0, 0, 0] ++ (ds ++ [d]).reverse := by
          simp [polyAdd, polyAdd_nil]

/-- Settles O19: over built tables `GfMul` is the field's multiplication, and with it the parity is a remainder
(`lfsrFeed_remainder`). -/
theorem parityIsRemainder : Obligations.ParityIsRemainder := by
  intro s hinv hready syms
  have hmul := hinv.ensureTables_mul
  rw [State.ensureTables_of_ready s hready] at hmul
  rw [hmul]
  exact lfsrFeed_remainder s.cfg.gfPoly s.cfg.rsCoeff syms

end Sys2Proof.Machine
end

section
/-! ### ENCODE: its parity digits, and that its input alone decides what it leaves (R90, R91, R117, R122, R157) -/

namespace Sys2Proof.Machine

/-! #### What ENCODE answers, where it completes -/

section Encode
variable {s : State} {str : List Byte}

theorem exec_encode_of_overlong (hsize : s.cfg.ibufSize < s.ilen.toNat) :
    exec .encode s = .next (s.ensureTables.raiseEncode .bufRange) := by
  simp [exec, execEncode, hsize]

theorem exec_encode_of_codec_error {e : ErrCode} (hsize : s.ilen.toNat ≤ s.cfg.ibufSize)
    (hread : readEntries s.ibuf 0 s.ilen.toNat = .ok str) (hcodec : codec s.cfg str = .error e) :
    exec .encode s = .next (s.ensureTables.raiseEncode e) := by
  simp [exec, execEncode, Nat.not_lt.2 hsize, hread, hcodec]

theorem exec_encode_of_codec_ok {ty : BarcodeType} {body : List Digit} (hsize : s.ilen.toNat ≤ s.cfg.ibufSize)
    (hread : readEntries s.ibuf 0 s.ilen.toNat = .ok str) (hcodec : codec s.cfg str = .ok (ty, body)) :
    exec .encode s = .next (s.ensureTables.assemble ty body) := by
  simp [exec, execEncode, Nat.not_lt.2 hsize, hread, hcodec]

end Encode

/-- The string a body is framed to, with its own parity by field multiplication (R91, R117, R118). -/
def framedBody (cfg : Cfg) (body : List Digit) : List Digit := framed body (parityDigits cfg (parityOf cfg body))

theorem framedBody_length (cfg : Cfg) (body : List Digit) : (framedBody cfg body).length = body.length + 16 := by
  rw [framedBody, framed_length, parityDigits_length]

/-- Everything the assembly can do with the tables as first use leaves them: it fails, or it delivers the body framed with its
parity (R80, R115, R122). -/
theorem State.Inv.ensureTables_assemble {s : State} (h : s.Inv) (ty : BarcodeType) (body : List Digit) :
    s.ensureTables.assemble ty body =
      if body.length % 3 = 0 then (s.ensureTables.setAcc (parityOf s.cfg body)).deliver ty (framedBody s.cfg body)
      else s.ensureTables.raiseEncode .internal := by
  simp only [State.assemble, h.ensureTables_mul, State.ensureTables_cfg, framedBody, parityOf]

/-- An ENCODE that leaves VALID 1 has delivered a body of a type's length, framed with its parity. -/
theorem State.Inv.exec_encode_valid {s t : State} (h : s.Inv) (hexec : exec .encode s = .next t)
    (hvalid : t.stat.valid = true) :
    ∃ ty body, body.length = bodyLength (rowFor s.cfg.typeTable ty) ∧
      t = (s.ensureTables.setAcc (parityOf s.cfg body)).deliver ty (framedBody s.cfg body) := by
  rcases exec_encode_cases s with ⟨-, he⟩ | ⟨-, ⟨i, -, he⟩ | ⟨str, -, ⟨e, -, he⟩ | ⟨ty, body, hcodec, he⟩⟩⟩ <;>
    rw [he] at hexec <;> cases hexec
  · cases hvalid
  · cases hvalid
  · rw [h.ensureTables_assemble] at hvalid ⊢
    split at hvalid
    · next hmod => exact ⟨ty, body, codec_ok_body_length h.admitted hcodec, if_pos hmod⟩
    · cases hvalid

/-! #### The parity digits in the barcode -/

/-- Position k of the parity digits holds the BAR_TABLE digits of check symbol k (R90, R117). -/
theorem parityDigits_at (cfg : Cfg) (acc : Vector Sym 4) (k : BitVec 2) :
    (parityDigits cfg acc)[3 * k.toNat]? = some (barExp cfg (checkSym acc k)).d0 ∧
      (parityDigits cfg acc)[3 * k.toNat + 1]? = some (barExp cfg (checkSym acc k)).d1 ∧
      (parityDigits cfg acc)[3 * k.toNat + 2]? = some (barExp cfg (checkSym acc k)).d2 := by
  have hk : k = 0 ∨ k = 1 ∨ k = 2 ∨ k = 3 := by
    revert k
    decide
  rcases hk with rfl | rfl | rfl | rfl <;> exact ⟨rfl, rfl, rfl⟩

/-- The parity digits stand after the start sentinel and the body (R118). -/
theorem framed_parity {body par : List Digit} {j : Nat} {d : Digit} (h : par[j]? = some d) :
    (framed body par)[body.length + 2 + j]? = some d := by
  obtain ⟨hj, -⟩ := List.getElem?_eq_some_iff.1 h
  have hhead : (sentinel ++ body).length = body.length + 2 := by
    rw [List.length_append, Nat.add_comm]
    rfl
  rw [framed, List.append_assoc, ← hhead, List.getElem?_append_right (Nat.le_add_right _ _), Nat.add_sub_cancel_left,
    List.getElem?_append_left hj, h]

/-- Settles O36: PREAD reads the accumulator ENCODE left, and OBUF holds that accumulator's parity digits two entries after the
body. -/
theorem encodeParityReadable : Obligations.EncodeParityReadable := by
  intro s t hinv hexec hvalid k
  obtain ⟨ty, body, hbody, rfl⟩ := hinv.exec_encode_valid hexec hvalid
  obtain ⟨hsize, h127⟩ := framedLength_le hinv.admitted ty
  have hstart : (BitVec.ofNat 7 (framedBody s.cfg body).length).toNat - 14 = body.length + 2 := by
    rw [framedBody_length, BitVec.toNat_ofNat, Nat.mod_eq_of_lt (by omega)]
    omega
  have hcell : ∀ {j : Nat} {d : Digit}, (parityDigits s.cfg (parityOf s.cfg body))[j]? = some d →
      (writeDigits s.obuf 0 (framedBody s.cfg body)).read? (body.length + 2 + j) = some (d.setWidth 8) := fun hd => by
    rw [writeDigits_zero_read _ _ _ hinv.obuf_wf, framedBody, framed_parity hd]
    rfl
  obtain ⟨hd0, hd1, hd2⟩ := parityDigits_at s.cfg (parityOf s.cfg body) k
  refine ⟨_, barExp s.cfg (checkSym (parityOf s.cfg body) k), exec_pread k _, ?entry, ?digits⟩
  case entry =>
    simp only [State.returnValue_res, State.deliver_acc, State.setAcc_acc, State.deliver_cfg, State.setAcc_cfg,
      State.ensureTables_cfg, BitVec.toNat_setWidth_of_le (by decide : 6 ≤ 16)]
    exact Vector.getElem?_eq_getElem _
  case digits =>
    simp only [State.deliver_olen, State.deliver_obuf, State.setAcc_obuf, State.ensureTables_obuf, hstart]
    exact ⟨hcell hd0, hcell hd1, hcell hd2⟩

/-! #### What ENCODE does not depend on -/

theorem readEntries_congr {m m' : Memory} {n i : Nat} (h : ∀ k, i ≤ k → k < i + n → m'.read? k = m.read? k) :
    readEntries m' i n = readEntries m i n := by
  induction n generalizing i with
  | zero => rfl
  | succ n ih =>
    rw [readEntries, readEntries, h i (Nat.le_refl i) (by omega), ih fun k hlo hhi => h k (by omega) (by omega)]

/-- The two states hold the same outcome of an ENCODE: STAT, the output, and after success the parity. -/
structure SameEncoding (t t' : State) : Prop where
  stat : t'.stat = t.stat
  olen : t'.olen = t.olen
  obuf : ∀ i, i < t.olen.toNat → t'.obuf.read? i = t.obuf.read? i
  acc : t.stat.valid = true → t'.acc = t.acc

theorem raiseEncode_sameEncoding (s s' : State) (e : ErrCode) :
    SameEncoding (s.ensureTables.raiseEncode e) (s'.ensureTables.raiseEncode e) where
  stat := by simp
  olen := by simp
  obuf _ hi := absurd hi (Nat.not_lt_zero _)
  acc hvalid := nomatch hvalid

theorem deliver_sameEncoding {s s' : State} (hwf : s.obuf.wf = true) (hwf' : s'.obuf.wf = true) (acc : Vector Sym 4)
    (ty : BarcodeType) (out : List Digit) :
    SameEncoding ((s.ensureTables.setAcc acc).deliver ty out) ((s'.ensureTables.setAcc acc).deliver ty out) where
  stat := by simp
  olen := by simp
  obuf i hi := by
    have hlt : i < out.length := by
      rw [State.deliver_olen, BitVec.toNat_ofNat] at hi
      exact hi.trans_le (Nat.mod_le _ _)
    simp only [State.deliver_obuf, State.setAcc_obuf, State.ensureTables_obuf, writeDigits_zero_read _ _ _ hwf,
      writeDigits_zero_read _ _ _ hwf', List.getElem?_eq_getElem hlt, Option.map_some, Option.some_or]
  acc _ := by simp

theorem assemble_sameEncoding {s s' : State} (h : s.Inv) (h' : s'.Inv) (hcfg : s'.cfg = s.cfg) (ty : BarcodeType)
    (body : List Digit) : SameEncoding (s.ensureTables.assemble ty body) (s'.ensureTables.assemble ty body) := by
  rw [h.ensureTables_assemble, h'.ensureTables_assemble, hcfg]
  split
  · exact deliver_sameEncoding h.obuf_wf h'.obuf_wf _ ty _
  · exact raiseEncode_sameEncoding s s' .internal

/-- Settles O38: the same input takes ENCODE through the same checks to the same outcome, and each outcome leaves the same encoding
whatever the state held. -/
theorem encodeIgnoresOldState : Obligations.EncodeIgnoresOldState := by
  intro s s' t hinv hinv' hcfg hilen hibuf hexec
  have hread : readEntries s'.ibuf 0 s'.ilen.toNat = readEntries s.ibuf 0 s.ilen.toNat := by
    rw [hilen]
    exact readEntries_congr fun k _ hk => hibuf k (by omega)
  have hsame : ∃ t', exec .encode s' = .next t' ∧ SameEncoding t t' := by
    rcases exec_encode_cases s with
      ⟨hsize, he⟩ | ⟨hsize, ⟨i, -, he⟩ | ⟨str, hstr, ⟨e, hcodec, he⟩ | ⟨ty, body, hcodec, he⟩⟩⟩ <;>
      rw [he] at hexec <;> cases hexec <;> rw [← hcfg, ← hilen] at hsize
    · exact ⟨_, exec_encode_of_overlong hsize, raiseEncode_sameEncoding s s' _⟩
    · rw [← hcfg] at hcodec
      exact ⟨_, exec_encode_of_codec_error hsize (hread.trans hstr) hcodec, raiseEncode_sameEncoding s s' e⟩
    · rw [← hcfg] at hcodec
      exact ⟨_, exec_encode_of_codec_ok hsize (hread.trans hstr) hcodec, assemble_sameEncoding hinv hinv' hcfg ty body⟩
  obtain ⟨t', hexec', hstat, holen, hobuf, hacc⟩ := hsame
  exact ⟨t', hexec', hstat, holen, hobuf, hacc⟩

end Sys2Proof.Machine
end

section
/-! ### The alphabet and the code of a character (R96, R97, R101, R110, R113) -/

namespace Sys2Proof.Machine

/-! The positions `charIndex` answers. -/

/-- `CharIndex` answers a character's position in the alphabet (R97). -/
theorem charIndex_eq_some_iff (c : Byte) (i : Sym) : charIndex c = some i ↔ alphabet[i.toNat]? = some c := by
  constructor
  · intro h
    obtain ⟨k, hk, hc⟩ := List.mem_iff_getElem.1 (mem_alphabet_of_charIndex h)
    have hat : alphabet[k]? = some c := List.getElem?_eq_some_iff.2 ⟨hk, hc⟩
    have hi : i = BitVec.ofNat 6 k := Option.some.inj (h.symm.trans (charIndex_of_position hat))
    have hk64 : k < 64 := hk
    rw [hi, BitVec.toNat_ofNat, Nat.mod_eq_of_lt hk64, hat]
  · intro h
    rw [charIndex_of_position h, BitVec.ofNat_toNat, BitVec.setWidth_eq]

theorem charIndex_eq_none_iff (c : Byte) : charIndex c = none ↔ c ∉ alphabet := by
  refine ⟨fun hnone hmem => ?_, charIndex_eq_none_of_not_mem⟩
  obtain ⟨k, hk⟩ := List.mem_iff_getElem?.1 hmem
  rw [charIndex_of_position hk] at hnone
  cases hnone

/-! Its closed form, class by class (R97). -/

theorem charIndex_decimal {c : Byte} (hlo : 0x30 ≤ c.toNat) (hhi : c.toNat ≤ 0x39) :
    charIndex c = some (BitVec.ofNat 6 (c.toNat - 0x30)) :=
  if_pos ⟨hlo, hhi⟩

theorem charIndex_upper {c : Byte} (hlo : 0x41 ≤ c.toNat) (hhi : c.toNat ≤ 0x5A) :
    charIndex c = some (BitVec.ofNat 6 (c.toNat - 0x37)) :=
  (if_neg (by omega)).trans (if_pos ⟨hlo, hhi⟩)

theorem charIndex_lower {c : Byte} (hlo : 0x61 ≤ c.toNat) (hhi : c.toNat ≤ 0x7A) :
    charIndex c = some (BitVec.ofNat 6 (c.toNat - 0x3D)) :=
  (if_neg (by omega)).trans ((if_neg (by omega)).trans (if_pos ⟨hlo, hhi⟩))

/-! The code of a triple. -/

/-- `Pack3` loses nothing (R113): the digits are those of the number in base 4. -/
theorem pack3_injective : Function.Injective pack3 := by
  intro p q h
  have hcode := congrArg BitVec.toNat h
  rw [pack3_toNat, pack3_toNat] at hcode
  obtain ⟨p0, p1, p2⟩ := p
  obtain ⟨q0, q1, q2⟩ := q
  have hdigits : p0 = q0 ∧ p1 = q1 ∧ p2 = q2 := by
    simp only at hcode
    bv_omega
  obtain ⟨rfl, rfl, rfl⟩ := hdigits
  rfl

/-! #### The statements -/

/-- Settles O21: the positions are those `charIndex_eq_some_iff` and `charIndex_eq_none_iff` say, so equal positions hold the same
character; the closed form is the definition's, class by class. -/
theorem charIndexIsAlphabetPosition : Obligations.CharIndexIsAlphabetPosition := by
  refine ⟨charIndex_eq_some_iff, charIndex_eq_none_iff, fun c d i hc hd => ?_, fun c => charIndex_decimal,
    fun c => charIndex_upper, fun c => charIndex_lower, rfl, rfl⟩
  rw [charIndex_eq_some_iff] at hc hd
  exact Option.some.inj (hc.symm.trans hd)

/-- Settles O22: CLOOKUP answers by `charIndex`, and that is the position in the alphabet, or none. -/
theorem clookupResult : Obligations.ClookupResult := by
  intro c s
  cases hindex : charIndex c with
  | some j =>
    refine ⟨_, exec_clookup_of_some hindex s, fun i hi hc => ⟨?res, rfl⟩, fun hnot => ?outside, s.returnValue_frame _⟩
    case res =>
      have hj : j = BitVec.ofNat 6 i := Option.some.inj (hindex.symm.trans (charIndex_of_position hc))
      rw [State.returnValue_res, BitVec.toNat_setWidth_of_le (by decide), hj, BitVec.toNat_ofNat, Nat.mod_eq_of_lt hi]
    case outside => exact absurd (mem_alphabet_of_charIndex hindex) hnot
  | none =>
    refine ⟨_, exec_clookup_of_none hindex s, fun i _ hc => ?inside, fun _ => ⟨rfl, rfl⟩, s.raise_frame _⟩
    case inside => exact absurd (List.mem_of_getElem? hc) ((charIndex_eq_none_iff c).1 hindex)

/-- Settles O25: each of the 64 codes is some entry's, so the 64 entries, as many as there are codes, are all distinct. -/
theorem defaultCTableIsPermutation : Obligations.DefaultCTableIsPermutation := by
  have hsurj : Function.Surjective fun i : Sym => pack3 (tableGet defaultCfg.cTable i) := by
    unfold Function.Surjective
    decide +kernel
  have hfinite : Finite Sym := Finite.of_injective BitVec.toFin BitVec.toFin_injective
  have hinj := Finite.injective_iff_surjective.2 hsurj
  intro d0 d1 d2
  obtain ⟨i, hi⟩ := hsurj (pack3 ⟨d0, d1, d2⟩)
  exact ⟨i, pack3_injective hi, fun j hj => hinj ((congrArg pack3 hj).trans hi.symm)⟩

end Sys2Proof.Machine
end

section
/-! ### ENCODE of a well-formed input: the codec gives the body of the rules, and the assembly frames it (R104 to R109, R114 to
R118, R122) -/

namespace Sys2Proof.Machine

/-! #### Characters and their table entries -/

theorem all_isDigit_iff (cs : List Byte) : cs.all isDigit = true ↔ ∀ c ∈ cs, DigitByte c := by
  simp only [List.all_eq_true, isDigit_iff]

/-- A customer field goes through N_TABLE exactly where it is not empty and every character is a digit (R105). -/
theorem isNumeric_iff (ci : List Byte) : isNumeric ci = true ↔ ci ≠ [] ∧ ∀ c ∈ ci, DigitByte c := by
  simp [isNumeric, isDigit_iff]

theorem numericCode_of_digit (cfg : Cfg) {c : Byte} (h : DigitByte c) : numericCode cfg c = pairDigits (nEnc cfg c) := by
  have hi : c.toNat - 0x30 < 10 := by
    obtain ⟨-, hhi⟩ := h
    omega
  have hentry := Vector.getElem?_eq_getElem (xs := cfg.nTable) hi
  unfold numericCode
  rw [hentry, nEnc_of_digit h hentry, pairDigits]

theorem encodeNumeric_eq (cfg : Cfg) {cs : List Byte} (h : ∀ c ∈ cs, DigitByte c) :
    encodeNumeric cfg cs = cs.flatMap (numericCode cfg) :=
  List.flatMap_congr fun c hc => (numericCode_of_digit cfg (h c hc)).symm

/-- A character of the alphabet has an entry of C_TABLE, the one at its position (R100). -/
theorem cEnc_of_mem (cfg : Cfg) {c : Byte} (h : c ∈ alphabet) :
    ∃ t, cEnc cfg c = some t ∧ alphaCode cfg c = tripleDigits t := by
  have hi : alphabet.idxOf c < 64 := List.idxOf_lt_length_of_mem h
  have hentry := Vector.getElem?_eq_getElem (xs := cfg.cTable) hi
  refine ⟨_, cEnc_of_position (List.getElem?_idxOf h) hentry, ?_⟩
  rw [alphaCode, hentry]
  rfl

theorem encodeAlpha_eq (cfg : Cfg) {cs : List Byte} (h : ∀ c ∈ cs, c ∈ alphabet) :
    encodeAlpha cfg cs = some (cs.flatMap (alphaCode cfg)) := by
  induction cs with
  | nil => rfl
  | cons c cs ih =>
    obtain ⟨hc, hcs⟩ := List.forall_mem_cons.1 h
    obtain ⟨t, ht, hcode⟩ := cEnc_of_mem cfg hc
    rw [encodeAlpha, ht, ih hcs, List.flatMap_cons, hcode]

/-! #### The customer field (R105 to R107) -/

theorem customerCode_of_numeric (cfg : Cfg) {ci : List Byte} (h : isNumeric ci = true) :
    customerCode cfg ci = ci.flatMap (numericCode cfg) :=
  if_pos ((isNumeric_iff ci).1 h).2

/-- Only the empty field is all digits and not numeric, and its code is empty through either table. -/
theorem customerCode_of_not_numeric (cfg : Cfg) {ci : List Byte} (h : isNumeric ci = false) :
    customerCode cfg ci = ci.flatMap (alphaCode cfg) := by
  rw [customerCode]
  split
  · next hdigits =>
    have hempty : ci = [] := by
      by_contra hne
      simp [(isNumeric_iff ci).2 ⟨hne, hdigits⟩] at h
    rw [hempty]
    rfl
  · rfl

theorem encodeCustomer_of_numeric (cfg : Cfg) {ci : List Byte} (h : isNumeric ci = true) :
    encodeCustomer cfg ci = some (customerCode cfg ci) := by
  rw [customerCode_of_numeric cfg h, ← encodeNumeric_eq cfg ((isNumeric_iff ci).1 h).2]
  exact if_pos h

theorem encodeCustomer_of_alphabet (cfg : Cfg) {ci : List Byte} (h : isNumeric ci = false) (hmem : ∀ c ∈ ci, c ∈ alphabet) :
    encodeCustomer cfg ci = some (customerCode cfg ci) := by
  rw [customerCode_of_not_numeric cfg h, ← encodeAlpha_eq cfg hmem]
  exact if_neg (by simp [h])

/-! #### The fixed fields (R103, R104) -/

/-- The FCC and the DPID are the first ten characters (R103). -/
theorem take_ten_eq (s : List Byte) : s.take 10 = s.take 2 ++ dpidOf s := by
  rw [dpidOf, ← List.take_add]

/-- In an admitted configuration each type is the one its FCC value selects (R8 (f), R104). -/
theorem typeOfFcc_rowFor {cfg : Cfg} (ha : admits cfg = true) (ty : BarcodeType) :
    typeOfFcc cfg.typeTable (rowFor cfg.typeTable ty).fcc = some ty := by
  obtain ⟨h59, h62, h5962⟩ := admits_fcc_distinct ha
  cases ty <;> simp [typeOfFcc, rowFor, h59.symm, h62.symm, h5962.symm]

theorem fccValue_of_digits {c0 c1 : Byte} (h0 : DigitByte c0) (h1 : DigitByte c1) :
    fccValue c0 c1 = 10 * (c0.toNat - 0x30) + (c1.toNat - 0x30) := by
  rw [fccValue, digitVal_val h0, digitVal_val h1]

/-! #### A well-formed input through the codec -/

section Input
variable {cfg : Cfg} {ty : BarcodeType} {str : List Byte}

theorem InputFor.fixed_digits (h : InputFor cfg ty str) :
    (∀ c ∈ str.take 2, DigitByte c) ∧ ∀ c ∈ dpidOf str, DigitByte c := by
  rw [← List.forall_mem_append, ← take_ten_eq]
  intro c hc
  obtain ⟨i, hi, rfl⟩ := List.mem_iff_getElem.1 hc
  have hlong := h.long
  have hi10 : i < 10 := by
    rw [List.length_take] at hi
    omega
  have hdigit := h.digits i hi10
  rwa [List.getD_eq_getElem _ _ (by omega), ← List.getElem_take] at hdigit

theorem InputFor.validateFixed_eq (h : InputFor cfg ty str) (ha : admits cfg = true) : validateFixed cfg str = .ok ty := by
  obtain ⟨hfcc, hdpid⟩ := h.fixed_digits
  refine validateFixed_known h.long ((all_isDigit_iff _).2 hfcc) ((all_isDigit_iff _).2 hdpid) ?_
  rw [fccValue_of_digits (h.digits 0 (by decide)) (h.digits 1 (by decide)), ← h.fcc]
  exact typeOfFcc_rowFor ha ty

/-- The customer field passes the length check and has a code (R105 to R107). -/
theorem InputFor.customer_eq (h : InputFor cfg ty str) :
    lengthOk (rowFor cfg.typeTable ty) (customerOf str) = true ∧
      encodeCustomer cfg (customerOf str) = some (customerCode cfg (customerOf str)) := by
  have hlen : (customerOf str).length = str.length - 10 := List.length_drop
  rcases h.customer with ⟨hdigits, hmax, hsome⟩ | ⟨hmixed, hmax, hmem⟩
  case inl =>
    have hne : customerOf str ≠ [] := List.ne_nil_of_length_pos (by omega)
    have hnum : isNumeric (customerOf str) = true := (isNumeric_iff _).2 ⟨hne, hdigits⟩
    exact ⟨by simp [lengthOk, hnum, hlen, hmax], encodeCustomer_of_numeric cfg hnum⟩
  case inr =>
    have hnum : isNumeric (customerOf str) = false := by
      refine Bool.eq_false_iff.2 fun hnum => ?_
      obtain ⟨hne, hdigits⟩ := (isNumeric_iff _).1 hnum
      rcases hmixed with hten | ⟨c, hc, hnot⟩
      · exact hne (List.eq_nil_of_length_eq_zero (by omega))
      · exact hnot (hdigits c hc)
    exact ⟨by simp [lengthOk, hnum, hlen, hmax], encodeCustomer_of_alphabet cfg hnum hmem⟩

theorem InputFor.bodyOf_eq (h : InputFor cfg ty str) :
    bodyOf cfg (rowFor cfg.typeTable ty) str (customerCode cfg (customerOf str)) = bodyString cfg ty str := by
  obtain ⟨hfcc, hdpid⟩ := h.fixed_digits
  rw [bodyOf, bodyString, encodeNumeric_eq cfg hfcc, encodeNumeric_eq cfg hdpid, ← List.flatMap_append, ← take_ten_eq,
    padCustomer, customerOf]
  simp only [List.append_assoc]

/-- The codec answers the type and the body the rules give (R109). -/
theorem InputFor.codec_eq (h : InputFor cfg ty str) (ha : admits cfg = true) :
    codec cfg str = .ok (ty, bodyString cfg ty str) := by
  obtain ⟨hlength, hcode⟩ := h.customer_eq
  simp [codec, h.validateFixed_eq ha, hlength, hcode, h.bodyOf_eq]

end Input

/-! #### The framed string (R117, R118) -/

/-- The check symbols through BAR_TABLE, in the order of the accumulator's cells from the last (R90, R117). -/
theorem parityDigits_eq_checkDigits (cfg : Cfg) (acc : Vector Sym 4) : parityDigits cfg acc = checkDigits cfg acc := by
  have hentry : ∀ v : Sym, cfg.barTable[v.toNat]? = some (barExp cfg v) := fun v => Vector.getElem?_eq_getElem v.isLt
  rw [checkDigits, acc_eq_cells acc]
  simp only [hentry]
  rfl

theorem framedBody_bodyString (cfg : Cfg) (ty : BarcodeType) (str : List Byte) :
    framedBody cfg (bodyString cfg ty str) = framedString cfg ty str := by
  rw [framedBody, parityDigits_eq_checkDigits]
  rfl

/-! #### What ENCODE reads and delivers (R31, R54, R122) -/

/-- The read of IBUF[0..ILEN) answers the string it holds (R54). -/
theorem InputIs.readEntries_eq {s : State} {str : List Byte} (h : InputIs s str) :
    readEntries s.ibuf 0 s.ilen.toNat = .ok str := by
  obtain ⟨hlen, hat⟩ := h
  refine (readEntries_ok_iff _ _ _ _).2 ⟨hlen, fun k hk => ?_⟩
  rw [Nat.zero_add]
  exact hat k hk

/-- OBUF holds what ENCODE delivers to it, and above it what it held (R31, R122). -/
theorem State.deliver_outputIs {s : State} (hwf : s.obuf.wf = true) (ty : BarcodeType) (out : List Digit) :
    OutputIs (s.deliver ty out) out ∧ ∀ i, out.length ≤ i → (s.deliver ty out).obuf.read? i = s.obuf.read? i := by
  refine ⟨fun i hi => ?_, fun i hi => writeDigits_above out s.obuf 0 i hwf (by omega)⟩
  have hat := writeDigits_at out s.obuf 0 i hwf hi
  rwa [Nat.zero_add] at hat

/-! #### The statements -/

/-- Settles O30: the codec answers the body of the rules (`InputFor.codec_eq`), whose length is its type's, and the assembly
delivers it framed with its parity. -/
theorem encodeSucceeds : Obligations.EncodeSucceeds := by
  intro s ty str hinv hinput hsize hfor hmod
  have hcodec := hfor.codec_eq hinv.admitted
  have hbody := codec_ok_body_length hinv.admitted hcodec
  have ⟨hilen, _⟩ := hinput
  rw [hilen] at hsize
  have hexec := exec_encode_of_codec_ok hsize hinput.readEntries_eq hcodec
  rw [hinv.ensureTables_assemble, if_pos (by rwa [hbody]), framedBody_bodyString] at hexec
  have hlen : (framedString s.cfg ty str).length = bodyLength (rowFor s.cfg.typeTable ty) + 16 := by
    rw [← framedBody_bodyString, framedBody_length, hbody]
  obtain ⟨hfits, h127⟩ := framedLength_le hinv.admitted ty
  have holen : (BitVec.ofNat 7 (framedString s.cfg ty str).length).toNat = (framedString s.cfg ty str).length := by
    rw [BitVec.toNat_ofNat, Nat.mod_eq_of_lt (by omega)]
  have hwf : (s.ensureTables.setAcc (parityOf s.cfg (bodyString s.cfg ty str))).obuf.wf = true := by
    simp [hinv.obuf_wf]
  obtain ⟨hout, habove⟩ := State.deliver_outputIs hwf ty (framedString s.cfg ty str)
  simp only [State.setAcc_obuf, State.ensureTables_obuf] at habove
  exact ⟨_, hexec, hout, holen, hlen, habove, rfl, by simp, by simp,
    hinv.ensureTables_ensured.of_kept ⟨rfl, rfl, rfl⟩, commandsKeepInput _ _ _ hexec⟩

/-- Settles O37: a valid output is a body of its type's length and the 16 digits of its frame, and the default rows fix the
length. -/
theorem defaultFramedLengths : Obligations.DefaultFramedLengths := by
  intro s t hinv htable hexec hvalid
  obtain ⟨ty, body, hbody, rfl⟩ := hinv.exec_encode_valid hexec hvalid
  rw [State.deliver_stat, State.deliver_olen, framedBody_length, hbody, htable]
  cases ty with
  | standard => exact .inl ⟨rfl, rfl⟩
  | type59 => exact .inr (.inl ⟨rfl, rfl⟩)
  | type62 => exact .inr (.inr ⟨rfl, rfl⟩)

end Sys2Proof.Machine
end

section
/-! ### The symbol assembler: PACK, BAREXP, and an ENCODE that raises an error (R113, R116, R117, R120 to R122, R135) -/

namespace Sys2Proof.Machine

/-! #### Digits in base 4 -/

/-- The three digits of a number below 64 in base 4, the leftmost most significant: the inverse of `Pack3` (R113, R116). -/
def baseFour (v : Nat) : Triple := ⟨BitVec.ofNat 2 (v / 16), BitVec.ofNat 2 (v / 4), BitVec.ofNat 2 v⟩

theorem pack3_baseFour (a : Sym) : pack3 (baseFour a.toNat) = a := by
  apply BitVec.eq_of_toNat_eq
  rw [pack3_toNat]
  simp only [baseFour, BitVec.toNat_ofNat]
  omega

theorem pack3_surjective : Function.Surjective pack3 := fun a => ⟨_, pack3_baseFour a⟩

/-- The entry of the default BAR_TABLE is the index in base 4 (R116). -/
theorem defaultBarTable_get (a : Sym) : tableGet defaultBarTable a = baseFour a.toNat := by
  have hlist : ((List.range 64).map baseFour)[a.toNat]? = some (baseFour a.toNat) := by simp [a.isLt]
  exact List.getElem_of_getElem? hlist |>.2

/-! #### The entry BAREXP packs (R117, R121) -/

theorem barExp_of_getElem? {cfg : Cfg} {a : Sym} {p : Triple} (h : cfg.barTable[a.toNat]? = some p) : barExp cfg a = p := by
  have hentry := tableGet_of_getElem? h
  rwa [BitVec.ofNat_toNat, BitVec.setWidth_eq] at hentry

theorem pack3_barExp_default {cfg : Cfg} (h : cfg.barTable = defaultCfg.barTable) (a : Sym) : pack3 (barExp cfg a) = a := by
  rw [barExp, h]
  exact (congrArg pack3 (defaultBarTable_get a)).trans (pack3_baseFour a)

/-- RES holds the packed triple as a number (R17, R113). -/
theorem returnValue_pack3_toNat (s : State) (p : Triple) :
    (s.returnValue ((pack3 p).setWidth 16)).res.toNat = 16 * p.d0.toNat + 4 * p.d1.toNat + p.d2.toNat := by
  rw [State.returnValue_res, BitVec.toNat_setWidth_of_le (by decide), pack3_toNat]

/-! #### An ENCODE that raises an error -/

/-- After first-use initialisation, `raise E` in ENCODE leaves what R135 and R137 say, whatever the error. -/
theorem State.ensureTables_raiseEncode_failed (s : State) (e : ErrCode) :
    EncodeFailed s (s.ensureTables.raiseEncode e) (errBits e) where
  err := rfl
  valid := rfl
  btype := rfl
  olen := rfl
  res := by simp
  acc := by simp
  obuf := by simp
  input := by constructor <;> simp
  ready := by simp
  tables hready := by
    rw [s.ensureTables_of_ready hready]
    exact ⟨rfl, rfl, rfl⟩

/-! #### The statements -/

/-- Settles O26: `Pack3` is the number the digits spell in base 4, so it is injective, and each symbol's own digits spell it. -/
theorem pack3IsBijection : Obligations.Pack3IsBijection :=
  ⟨fun d0 d1 d2 => pack3_toNat ⟨d0, d1, d2⟩, pack3_injective, pack3_surjective⟩

/-- Settles O27: PACK returns the packed digits and does nothing else. -/
theorem packResult : Obligations.PackResult :=
  fun d0 d1 d2 s => ⟨_, exec_pack d0 d1 d2 s, returnValue_pack3_toNat s ⟨d0, d1, d2⟩, rfl, s.returnValue_frame _⟩

/-- Settles O28: BAREXP returns the packed entry, and packing undoes the base-4 expansion the default table holds. -/
theorem barexpResult : Obligations.BarexpResult := by
  intro a s
  refine ⟨_, exec_barexp a s, fun p hp => ?entry, fun hdefault => ?identity, rfl, s.returnValue_frame _⟩
  case entry => rw [returnValue_pack3_toNat, barExp_of_getElem? hp]
  case identity => rw [State.returnValue_res, pack3_barExp_default hdefault]

/-- Settles O31: the length check comes before the read, and its failure raises BUF_RANGE. -/
theorem encodeBufRange : Obligations.EncodeBufRange :=
  fun s hsize => ⟨_, exec_encode_of_overlong hsize, s.ensureTables_raiseEncode_failed .bufRange⟩

end Sys2Proof.Machine
end

section
/-! ### The bar mapper: the words of the shape ROM, and BARSHAPE (R124, R125, R127) -/

namespace Sys2Proof.Machine

/-! #### One equation per row of the ROM: height, top, code -/

@[simp] theorem shapeWord_full : shapeWord .full = 0x0800 := by decide

@[simp] theorem shapeWord_ascender : shapeWord .ascender = 0x0401 := by decide

@[simp] theorem shapeWord_descender : shapeWord .descender = 0x0442 := by decide

@[simp] theorem shapeWord_tracker : shapeWord .tracker = 0x0233 := by decide

/-! #### The statement -/

/-- Settles O29: BARSHAPE returns the ROM word of the digit's shape, one row for each digit, and does nothing else. -/
theorem barshapeResult : Obligations.BarshapeResult := by
  intro k s
  refine ⟨_, exec_barshape k s, ?full, ?ascender, ?descender, ?tracker, rfl, s.returnValue_frame _⟩
  case full => rintro rfl; exact shapeWord_full
  case ascender => rintro rfl; exact shapeWord_ascender
  case descender => rintro rfl; exact shapeWord_descender
  case tracker => rintro rfl; exact shapeWord_tracker

end Sys2Proof.Machine
end

section
/-! ### The control commands: NOP and ILLEGAL (R128, R129) -/

namespace Sys2Proof.Machine

/-- A completed command leaves in STAT.ERR the code of no error (R133), so what `raise` keeps, `complete` keeps. -/
theorem State.complete_frame (s : State) :
    s.complete.acc = s.acc ∧ InputKept s s.complete ∧ OutputKept s s.complete ∧ TablesKept s s.complete :=
  s.raise_frame .none

/-! #### The statements -/

/-- Settles O7: NOP only completes, which writes STAT.ERR alone. -/
theorem nopResult : Obligations.NopResult :=
  fun s => ⟨s.complete, exec_nop s, by rw [State.complete_stat], s.complete_res, s.complete_frame⟩

/-- Settles O8: ILLEGAL only raises its error, whatever the word, and raising writes STAT.ERR alone. -/
theorem illegalResult : Obligations.IllegalResult :=
  fun w s => ⟨s.raise .illegalCmd, exec_illegal w s, by rw [State.raise_stat, errBits], s.raise_res .illegalCmd,
    s.raise_frame .illegalCmd⟩

end Sys2Proof.Machine
end

section
/-! ### Failing commands: the order of the checks ENCODE makes, and what a failure leaves (R104 to R107, R115, R134 to R138, R147) -/

namespace Sys2Proof.Machine

/-! #### The fixed fields in the rules' own terms (R103, R104) -/

/-- A run of entries is all digits exactly where each entry of the run is one. -/
theorem all_isDigit_run_iff {str : List Byte} {k n : Nat} (h : k + n ≤ str.length) :
    ((str.drop k).take n).all isDigit = true ↔ ∀ i, k ≤ i → i < k + n → DigitByte (str.getD i 0) := by
  have hat : ∀ j, k + j < str.length → (str.drop k)[j]? = some (str.getD (k + j) 0) := fun j hj => by
    rw [List.getElem?_drop, List.getElem?_eq_getElem hj, List.getD_eq_getElem _ _ hj]
  rw [all_isDigit_iff]
  constructor
  · intro hall i hlo hhi
    have hi := hat (i - k) (by omega)
    rw [Nat.add_sub_cancel' hlo, ← List.getElem?_take_of_lt (by omega : i - k < n)] at hi
    exact hall _ (List.mem_of_getElem? hi)
  · intro hdigits c hc
    obtain ⟨j, hj⟩ := List.mem_iff_getElem?.1 hc
    have hjn : j < n := by
      have hlt := (List.getElem?_eq_some_iff.1 hj).1
      rw [List.length_take] at hlt
      omega
    rw [List.getElem?_take_of_lt hjn, hat j (by omega)] at hj
    cases hj
    exact hdigits (k + j) (by omega) (by omega)

theorem fcc_isDigit_iff {str : List Byte} (h : 10 ≤ str.length) :
    (str.take 2).all isDigit = true ↔ ∀ i, i < 2 → DigitByte (str.getD i 0) := by
  simpa using all_isDigit_run_iff (k := 0) (n := 2) (str := str) (by omega)

theorem dpid_isDigit_iff {str : List Byte} (h : 10 ≤ str.length) :
    (dpidOf str).all isDigit = true ↔ ∀ i, 2 ≤ i → i < 10 → DigitByte (str.getD i 0) :=
  all_isDigit_run_iff (k := 2) (n := 8) h

theorem typeOfFcc_eq_none {tt : TypeTable} {fcc : Nat} (h : ∀ ty, (rowFor tt ty).fcc ≠ fcc) : typeOfFcc tt fcc = none :=
  Option.eq_none_iff_forall_ne_some.2 fun ty hty => h ty (typeOfFcc_fcc hty).symm

/-- The fixed fields pass for a type exactly where all ten characters are digits and the first two spell the type's FCC (R104). -/
theorem validateFixed_ok_iff {cfg : Cfg} (ha : admits cfg = true) {str : List Byte} {ty : BarcodeType} :
    validateFixed cfg str = .ok ty ↔
      10 ≤ str.length ∧ (∀ i, i < 10 → DigitByte (str.getD i 0)) ∧
        (rowFor cfg.typeTable ty).fcc = 10 * ((str.getD 0 0).toNat - 0x30) + ((str.getD 1 0).toNat - 0x30) := by
  constructor
  · intro hok
    rcases validateFixed_cases cfg str with
      ⟨-, he⟩ | ⟨-, -, he⟩ | ⟨-, -, -, he⟩ | ⟨-, -, -, -, he⟩ | ⟨hlong, hfcc, hdpid, ty', hty, he⟩ <;>
      rw [he] at hok <;> cases hok
    rw [fcc_isDigit_iff hlong] at hfcc
    rw [dpid_isDigit_iff hlong] at hdpid
    refine ⟨hlong, fun i hi => ?digits, ?fcc⟩
    case digits =>
      by_cases hi2 : i < 2
      · exact hfcc i hi2
      · exact hdpid i (Nat.le_of_not_lt hi2) hi
    case fcc => rw [← typeOfFcc_fcc hty, fccValue_of_digits (hfcc 0 (by decide)) (hfcc 1 (by decide))]
  · rintro ⟨hlong, hdigits, hfcc⟩
    refine validateFixed_known hlong ((fcc_isDigit_iff hlong).2 fun i hi => hdigits i (by omega))
      ((dpid_isDigit_iff hlong).2 fun i _ hi => hdigits i hi) ?_
    rw [fccValue_of_digits (hdigits 0 (by decide)) (hdigits 1 (by decide)), ← hfcc]
    exact typeOfFcc_rowFor ha ty

/-! #### The customer field (R105 to R107) -/

theorem isNumeric_eq_false {ci : List Byte} (h : ∃ c ∈ ci, ¬ DigitByte c) : isNumeric ci = false := by
  obtain ⟨c, hc, hnot⟩ := h
  refine Bool.eq_false_iff.2 fun hnum => ?_
  obtain ⟨-, hdigits⟩ := (isNumeric_iff ci).1 hnum
  exact hnot (hdigits c hc)

theorem lengthOk_of_numeric (row : TypeRow) {ci : List Byte} (h : isNumeric ci = true) :
    lengthOk row ci = decide (ci.length ≤ row.maxDigits) :=
  if_pos h

theorem lengthOk_of_not_numeric (row : TypeRow) {ci : List Byte} (h : isNumeric ci = false) :
    lengthOk row ci = decide (ci.length ≤ row.maxChars) :=
  if_neg (by simp [h])

theorem digit_mem_alphabet {c : Byte} (h : DigitByte c) : c ∈ alphabet :=
  mem_alphabet_of_charIndex (charIndex_decimal h.1 h.2)

/-- What C_TABLE codes is in the alphabet, character by character (R100, R107). -/
theorem mem_alphabet_of_encodeAlpha {cfg : Cfg} {cs : List Byte} {ds : List Digit} (h : encodeAlpha cfg cs = some ds) :
    ∀ c ∈ cs, c ∈ alphabet := by
  induction cs generalizing ds with
  | nil => exact nofun
  | cons c cs ih =>
    rw [encodeAlpha] at h
    cases hc : cEnc cfg c with
    | none => simp [hc] at h
    | some t =>
      cases hcs : encodeAlpha cfg cs with
      | none => simp [hc, hcs] at h
      | some rest =>
        refine List.forall_mem_cons.2 ⟨?_, ih hcs⟩
        by_contra hnot
        rw [cEnc_eq_none_of_not_mem cfg hnot] at hc
        cases hc

theorem encodeCustomer_of_not_numeric (cfg : Cfg) {ci : List Byte} (h : isNumeric ci = false) :
    encodeCustomer cfg ci = encodeAlpha cfg ci :=
  if_neg (by simp [h])

theorem encodeCustomer_eq_none (cfg : Cfg) {ci : List Byte} (h : ∃ c ∈ ci, c ∉ alphabet) : encodeCustomer cfg ci = none := by
  obtain ⟨c, hc, hnot⟩ := h
  rw [encodeCustomer_of_not_numeric cfg (isNumeric_eq_false ⟨c, hc, fun hdigit => hnot (digit_mem_alphabet hdigit)⟩)]
  exact Option.eq_none_iff_forall_ne_some.2 fun _ hsome => hnot (mem_alphabet_of_encodeAlpha hsome c hc)

/-! #### The codec passes only a well-formed input, and answers the first error (R109, R138) -/

/-- The converse of `InputFor.codec_eq`: what the codec passes is well formed for the type it answers. -/
theorem inputFor_of_codec_ok {cfg : Cfg} (ha : admits cfg = true) {str : List Byte} {ty : BarcodeType} {body : List Digit}
    (h : codec cfg str = .ok (ty, body)) : InputFor cfg ty str := by
  obtain ⟨hfixed, hlength, ciE, hcode, -⟩ := codec_ok h
  obtain ⟨hlong, hdigits, hfcc⟩ := (validateFixed_ok_iff ha).1 hfixed
  have hlen : (customerOf str).length = str.length - 10 := List.length_drop
  refine ⟨hlong, hdigits, hfcc, ?_⟩
  cases hnum : isNumeric (customerOf str) with
  | true =>
    obtain ⟨hne, hall⟩ := (isNumeric_iff _).1 hnum
    rw [lengthOk_of_numeric _ hnum, decide_eq_true_eq, hlen] at hlength
    have hpos := List.length_pos_iff.2 hne
    exact .inl ⟨hall, hlength, by omega⟩
  | false =>
    rw [lengthOk_of_not_numeric _ hnum, decide_eq_true_eq, hlen] at hlength
    rw [encodeCustomer_of_not_numeric cfg hnum] at hcode
    refine .inr ⟨?mixed, hlength, mem_alphabet_of_encodeAlpha hcode⟩
    case mixed =>
      by_contra hnot
      obtain ⟨hten, hall⟩ := not_or.1 hnot
      have hne : customerOf str ≠ [] := List.ne_nil_of_length_pos (by omega)
      have htrue := (isNumeric_iff _).2 ⟨hne, by simpa [customerOf] using hall⟩
      exact absurd (hnum.symm.trans htrue) (by decide)

section Codec
variable {cfg : Cfg} {ty : BarcodeType} {str : List Byte}

theorem codec_of_fixed_error {e : ErrCode} (h : validateFixed cfg str = .error e) : codec cfg str = .error e := by
  simp [codec, h]

theorem codec_of_overlong (hfixed : validateFixed cfg str = .ok ty)
    (hlength : lengthOk (rowFor cfg.typeTable ty) (customerOf str) = false) :
    codec cfg str = .error .valLengthExceeded := by
  simp [codec, hfixed, hlength]

theorem codec_of_no_code (hfixed : validateFixed cfg str = .ok ty)
    (hlength : lengthOk (rowFor cfg.typeTable ty) (customerOf str) = true)
    (hcode : encodeCustomer cfg (customerOf str) = none) : codec cfg str = .error .encNotInAlphabet := by
  simp [codec, hfixed, hlength, hcode]

/-- A customer field over its maximum, that of digits or that of characters, fails the length check (R105, R106). -/
theorem lengthOk_eq_false {row : TypeRow}
    (h : ((∀ c ∈ str.drop 10, DigitByte c) ∧ 10 < str.length ∧ row.maxDigits < str.length - 10) ∨
      ((∃ c ∈ str.drop 10, ¬ DigitByte c) ∧ row.maxChars < str.length - 10)) :
    lengthOk row (customerOf str) = false := by
  have hlen : (customerOf str).length = str.length - 10 := List.length_drop
  rcases h with ⟨hall, hsome, hmax⟩ | ⟨hmixed, hmax⟩
  · have hne : customerOf str ≠ [] := List.ne_nil_of_length_pos (by omega)
    rw [lengthOk_of_numeric row ((isNumeric_iff _).2 ⟨hne, hall⟩), hlen]
    exact decide_eq_false (by omega)
  · have hnum : isNumeric (customerOf str) = false := isNumeric_eq_false hmixed
    rw [lengthOk_of_not_numeric row hnum, hlen]
    exact decide_eq_false (by omega)

/-- A customer field with a character outside the alphabet is measured against the maximum of characters (R105, R106). -/
theorem lengthOk_of_not_alphabet {row : TypeRow} (hmax : str.length - 10 ≤ row.maxChars)
    (h : ∃ c ∈ str.drop 10, c ∉ alphabet) : lengthOk row (customerOf str) = true := by
  obtain ⟨c, hc, hnot⟩ := h
  have hnum : isNumeric (customerOf str) = false :=
    isNumeric_eq_false ⟨c, hc, fun hdigit => hnot (digit_mem_alphabet hdigit)⟩
  rw [lengthOk_of_not_numeric row hnum, customerOf, List.length_drop]
  exact decide_eq_true hmax

end Codec

/-! #### How a failing command ends (R134, R135) -/

theorem errBits_ne_zero {e : ErrCode} (h : e ≠ .none) : errBits e ≠ 0 := by
  cases e with
  | none => exact absurd rfl h
  | _ => decide

/-- Everything a failing command can do: ENCODE raises its error after first-use initialisation, any other command at once. -/
theorem exec_failed_cases {i : Instr} {s t : State} (h : exec i s = .next t) (herr : t.stat.err ≠ 0) :
    (i ≠ .encode ∧ ∃ e, t = s.raise e) ∨ (i = .encode ∧ ∃ e, t = s.ensureTables.raiseEncode e) := by
  cases exec_effect h with
  | clookupFails | nencFails | cencFails | illegal => exact .inl ⟨nofun, _, rfl⟩
  | encodeFails e => exact .inr ⟨rfl, e, rfl⟩
  | _ => exact absurd rfl herr

/-- A well-formed input whose body does not divide into symbols ends in INTERNAL (R115). -/
theorem InputFor.exec_encode_internal {s : State} {ty : BarcodeType} {str : List Byte} (h : InputFor s.cfg ty str)
    (ha : admits s.cfg = true) (hinput : InputIs s str) (hsize : s.ilen.toNat ≤ s.cfg.ibufSize)
    (hmod : bodyLength (rowFor s.cfg.typeTable ty) % 3 ≠ 0) :
    exec .encode s = .next (s.ensureTables.raiseEncode .internal) := by
  have hcodec := h.codec_eq ha
  rw [← codec_ok_body_length ha hcodec] at hmod
  rw [exec_encode_of_codec_ok hsize hinput.readEntries_eq hcodec, State.assemble, if_neg hmod]

/-! #### The input of an ENCODE that completes (R30, R54, R136) -/

/-- The converse of `InputIs.readEntries_eq`. -/
theorem inputIs_of_readEntries {s : State} {str : List Byte} (h : readEntries s.ibuf 0 s.ilen.toNat = .ok str) :
    InputIs s str := by
  obtain ⟨hlen, hat⟩ := (readEntries_ok_iff _ _ _ _).1 h
  refine ⟨hlen, fun i hi => ?_⟩
  rw [← hat i hi, Nat.zero_add]

theorem InputIs.of_kept {s t : State} {str : List Byte} (h : InputIs s str) (hkept : InputKept s t) : InputIs t str := by
  obtain ⟨hlen, hat⟩ := h
  refine ⟨by rw [hlen, hkept.ilen], fun i hi => ?_⟩
  rw [hkept.ibuf, hat i hi]

/-- An ENCODE that completes has failed, or it had a well-formed input whose body divides into symbols. -/
theorem exec_encode_failed_or_wellFormed {s t : State} (ha : admits s.cfg = true) (h : exec .encode s = .next t) :
    (∃ e, e ≠ .none ∧ EncodeFailed s t (errBits e)) ∨
      ∃ ty str, InputIs s str ∧ str.length ≤ s.cfg.ibufSize ∧ InputFor s.cfg ty str ∧
        bodyLength (rowFor s.cfg.typeTable ty) % 3 = 0 := by
  rcases exec_encode_cases s with ⟨-, he⟩ | ⟨hsize, ⟨i, -, he⟩ | ⟨str, hread, ⟨e, hcodec, he⟩ | ⟨ty, body, hcodec, he⟩⟩⟩
  · cases he.symm.trans h
    exact .inl ⟨.bufRange, by decide, s.ensureTables_raiseEncode_failed _⟩
  · cases he.symm.trans h
  · cases he.symm.trans h
    obtain ⟨hfails, -⟩ := codec_error hcodec
    exact .inl ⟨e, hfails, s.ensureTables_raiseEncode_failed e⟩
  · have hinput := inputIs_of_readEntries hread
    have ⟨hilen, _⟩ := hinput
    have hfor := inputFor_of_codec_ok ha hcodec
    by_cases hmod : bodyLength (rowFor s.cfg.typeTable ty) % 3 = 0
    · exact .inr ⟨ty, str, hinput, hilen.trans_le hsize, hfor, hmod⟩
    · cases (hfor.exec_encode_internal ha hinput hsize hmod).symm.trans h
      exact .inl ⟨.internal, by decide, s.ensureTables_raiseEncode_failed _⟩

/-! #### The statements -/

/-- Settles O32: an error of the codec is the error raised (`hraises`), and the codec makes its checks in the order of R138; INTERNAL
comes after all of them. -/
theorem encodeErrorPriority : Obligations.EncodeErrorPriority := by
  intro s str ha hinput hsize
  have ⟨hilen, _⟩ := hinput
  rw [hilen] at hsize
  obtain ⟨t, hexec⟩ := (exec_encode_completes_iff s).2 (.inr ⟨str, hinput.readEntries_eq⟩)
  have hfailed : ∀ {e}, exec .encode s = .next (s.ensureTables.raiseEncode e) → EncodeFailed s t (errBits e) := fun he => by
    cases he.symm.trans hexec
    exact s.ensureTables_raiseEncode_failed _
  have hraises : ∀ {e}, codec s.cfg str = .error e → EncodeFailed s t (errBits e) := fun hcodec =>
    hfailed (exec_encode_of_codec_error hsize hinput.readEntries_eq hcodec)
  refine ⟨t, hexec, fun hshort => ?tooShort, fun hlong hnot => ?fcc, fun hlong htwo hnot => ?dpid,
    fun hlong hten hnone => ?unknown, fun ty hlong hten hfcc hover => ?overlong,
    fun ty hlong hten hfcc hmax hnot => ?alphabet, fun ty hfor hmod => ?internal⟩
  case tooShort => exact hraises (codec_of_fixed_error (validateFixed_tooShort hshort))
  case fcc =>
    have hbad : (str.take 2).all isDigit = false := Bool.eq_false_iff.2 fun hall =>
      have hdigits := (fcc_isDigit_iff hlong).1 hall
      hnot ⟨hdigits 0 (by decide), hdigits 1 (by decide)⟩
    exact hraises (codec_of_fixed_error (validateFixed_badFcc hlong hbad))
  case dpid =>
    obtain ⟨i, hlo, hhi, hnotDigit⟩ := hnot
    have hbad : (dpidOf str).all isDigit = false := Bool.eq_false_iff.2 fun hall =>
      hnotDigit ((dpid_isDigit_iff hlong).1 hall i hlo hhi)
    exact hraises (codec_of_fixed_error (validateFixed_badDpid hlong ((fcc_isDigit_iff hlong).2 htwo) hbad))
  case unknown =>
    have hfcc := (fcc_isDigit_iff hlong).2 fun i hi => hten i (by omega)
    have hdpid := (dpid_isDigit_iff hlong).2 fun i _ hi => hten i hi
    rw [← fccValue_of_digits (hten 0 (by decide)) (hten 1 (by decide))] at hnone
    exact hraises (codec_of_fixed_error (validateFixed_unknown hlong hfcc hdpid (typeOfFcc_eq_none hnone)))
  case overlong =>
    exact hraises (codec_of_overlong ((validateFixed_ok_iff ha).2 ⟨hlong, hten, hfcc⟩) (lengthOk_eq_false hover))
  case alphabet =>
    exact hraises (codec_of_no_code ((validateFixed_ok_iff ha).2 ⟨hlong, hten, hfcc⟩) (lengthOk_of_not_alphabet hmax hnot)
      (encodeCustomer_eq_none s.cfg hnot))
  case internal => exact hfailed (hfor.exec_encode_internal ha hinput hsize hmod)

/-- Settles O35: a completing ENCODE has failed and left no output, or its input was well formed and it delivered the framed string
of O30. -/
theorem encodeAllOrNothing : Obligations.EncodeAllOrNothing := by
  intro s t hinv hexec
  rcases exec_encode_failed_or_wellFormed hinv.admitted hexec with ⟨e, hfails, hfailed⟩ | ⟨ty, str, hinput, hsize, hfor, hmod⟩
  · exact .inr ⟨hfailed.valid, by rw [hfailed.err]; exact errBits_ne_zero hfails, hfailed.olen⟩
  · obtain ⟨u, hu, hout, holen, -, -, -, hstat, -, -, hkept⟩ := encodeSucceeds s ty str hinv hinput hsize hfor hmod
    cases hu.symm.trans hexec
    rw [hstat, hkept.cfg]
    exact .inl ⟨rfl, rfl, ty, str, hinput.of_kept hkept, hfor, hout, holen⟩

/-- Settles O46: a failing command only raises its error (`exec_failed_cases`), and what that leaves is said by `State.raise_frame`
and, for ENCODE, by `State.ensureTables_raiseEncode_failed`. -/
theorem failuresArePrecise : Obligations.FailuresArePrecise := by
  intro i s t hexec herr
  rcases exec_failed_cases hexec herr with ⟨hi, e, rfl⟩ | ⟨hi, e, rfl⟩
  · obtain ⟨hacc, hinput, houtput, htables⟩ := s.raise_frame e
    exact ⟨s.raise_res e, hacc, hinput, houtput.obuf, fun _ => ⟨houtput, htables⟩, fun _ => htables, fun h => absurd h hi⟩
  · have hfailed := s.ensureTables_raiseEncode_failed e
    exact ⟨hfailed.res, hfailed.acc, hfailed.input, hfailed.obuf, fun h => absurd hi h, hfailed.tables, fun _ =>
      ⟨hfailed.olen, hfailed.valid, hfailed.btype, fun hinv => hinv.ensureTables_ensured.of_kept ⟨rfl, rfl, rfl⟩⟩⟩

/-- Settles O49: with an admitted configuration and no operation to take, a step can only idle. -/
theorem idleStepHoldsState : Obligations.IdleStepHoldsState := by
  intro s ha hnil
  rcases step_cases s with ⟨hbad, -⟩ | ⟨-, -, he⟩ | ⟨-, op, rest, hp, -⟩
  · exact absurd (ha.symm.trans hbad) (by decide)
  · exact he
  · exact absurd (hnil.symm.trans hp) (by simp)

end Sys2Proof.Machine
end

section
/-! ### RST between two host operations (R148, R149, R150, R152) -/

namespace Sys2Proof.Machine

/-- RST takes its turn among the host's operations (log entry 8): only the operations behind it still wait. -/
theorem step_reset {s : State} {rest : List HostOp} (ha : admits s.cfg = true) (hp : s.pending = .reset :: rest) :
    step s = .next (s.setPending rest).rst :=
  step_of_pending ha hp

/-- ACC is zero after RST (R149). -/
theorem State.rst_acc_toList (s : State) : s.rst.acc.toList = [0, 0, 0, 0] := by
  rw [State.rst_acc, Vector.toList_replicate]
  rfl

/-- No entry of either buffer holds a value after RST (R32, R149). -/
theorem State.rst_buffers_unwritten (s : State) (i : Nat) : s.rst.ibuf.read? i = none ∧ s.rst.obuf.read? i = none := by
  rw [State.rst_ibuf, State.rst_obuf]
  exact ⟨Memory.empty_read i, Memory.empty_read i⟩

/-! #### The statement -/

/-- Settles O51: RST gives each register its reset value and empties the buffers; the configuration, the operations behind it and
the host's record of reads stay. -/
theorem resetValues : Obligations.ResetValues := by
  intro s rest ha hp
  have hunwritten := (s.setPending rest).rst_buffers_unwritten
  refine ⟨_, step_reset ha hp, State.rst_res _, State.rst_stat _, State.rst_ilen _, State.rst_olen _,
    State.rst_acc_toList _, fun i => (hunwritten i).1, fun i => (hunwritten i).2, ?cfg, ?pending, ?reads⟩
  case cfg => rw [State.rst_cfg, State.setPending_cfg]
  case pending => rw [State.rst_pending, State.setPending_pending]
  case reads => rw [State.rst_reads, State.setPending_reads]

end Sys2Proof.Machine
end
